-- ==== Sys2Proof/Word.lean ====
section
/-! DEFINITION. The widths of the values that the rules of spec/ name (00_scope.md R4, R5): every value is an
unsigned integer of a stated width, bit 0 the least significant. -/

namespace Sys2Proof

/-- `u1`: a carry, borrow, underflow or overflow inside one rule (00_scope.md R6). -/
abbrev Bit := BitVec 1

/-- `u32`: a limb, or the mask made from a borrow (00_scope.md R4 `LIMB`). -/
abbrev Limb := BitVec 32

/-- `u64`: a field element, an operand or a response (00_scope.md R4 `W`). -/
abbrev Word := BitVec 64

/-- `u128`: the widened sum or product (00_scope.md R4 `WIDE`). -/
abbrev Wide := BitVec 128

/-- The operation-select code (00_scope.md R4 `OPW`, 10_state.md R14 port `op`). -/
abbrev SelectCode := BitVec 3

/-- A command word `op ‖ x ‖ y` (30_encoding.md R35). -/
abbrev CommandWord := BitVec 131

end Sys2Proof
end

