-- ==== Sys2Proof/Machine/Arith.lean ====
section
/-! DEFINITION. The constants of 10_state.md R11 and the flagless primitives of 00_scope.md R6. -/

namespace Sys2Proof.Machine

/-- `P`, the modulus 2^64 - 2^32 + 1 (10_state.md R11). -/
def modulus : Word := 0xFFFFFFFF00000001#64

/-- `P_WIDE = zext_128(P)` (10_state.md R11). -/
def modulusWide : Wide := 0x0000000000000000FFFFFFFF00000001#128

/-- `EPSILON`, 2^32 - 1 (10_state.md R11). -/
def epsilon : Word := 0x00000000FFFFFFFF#64

/-- `zext_64` (00_scope.md R5). -/
def zext64 {n : Nat} (v : BitVec n) : Word := v.setWidth 64

/-- `zext_128` (00_scope.md R5). -/
def zext128 {n : Nat} (v : BitVec n) : Wide := v.setWidth 128

/-- `wrap_add64` (00_scope.md R6). -/
def wrapAdd64 (a b : Word) : Word := a + b

/-- `wrap_sub64` (00_scope.md R6). -/
def wrapSub64 (a b : Word) : Word := a - b

/-- `shl64`: bits shifted out at the top are lost (00_scope.md R6). -/
def shl64 (a : Word) (k : Nat) : Word := a <<< k

/-- `shr64`: a logical shift (00_scope.md R6). -/
def shr64 (a : Word) (k : Nat) : Word := a >>> k

/-- `umul128`: the exact product, which always fits (00_scope.md R6). -/
def umul128 (a b : Word) : Wide := zext128 a * zext128 b

end Sys2Proof.Machine
end

