-- ==== Sys2Proof/Machine/Flags.lean ====
section
/-! DEFINITION. The one-bit values inside one evaluation of one rule and the mask made of one (00_scope.md R6). They
are not state (10_state.md R17). -/

namespace Sys2Proof.Machine

/-- `ovf_add64`: the wrapped sum and its carry (00_scope.md R6). -/
def ovfAdd64 (a b : Word) : Word × Bit :=
  (a + b, if 2 ^ 64 ≤ a.toNat + b.toNat then 1 else 0)

/-- `ovf_sub64`: the wrapped difference and its borrow (00_scope.md R6). -/
def ovfSub64 (a b : Word) : Word × Bit :=
  (a - b, if a < b then 1 else 0)

/-- `mask32`: all ones for 1, all zeros for 0 (00_scope.md R6). -/
def mask32 (f : Bit) : Limb := 0 - f.setWidth 32

end Sys2Proof.Machine
end

