-- ==== Sys2Proof/Syntax.lean ====
section
/-! DEFINITION. The instructions (30_encoding.md R37, one constructor for each row of spec/opcode_table.json) and the
abstract form of one line of assembler text (30_encoding.md R41). -/

namespace Sys2Proof

/-- One command of the unit: the operation together with its two operand fields, each a whole unsigned 64-bit integer
taken as it stands (30_encoding.md R37, R39). -/
inductive Instr where
  | add (x y : Word)
  | addFast (x y : Word)
  | addWinterfell (x y : Word)
  | mul (x y : Word)
  | mulReduce159 (x y : Word)
  | mulReduceMontgomery (x y : Word)
  | montgomeryEquals (lhs rhs : Word)
deriving DecidableEq, Repr

/-- The seven operations without their operands (00_scope.md R1, 30_encoding.md R37). -/
inductive Op where
  | add
  | addFast
  | addWinterfell
  | mul
  | mulReduce159
  | mulReduceMontgomery
  | montgomeryEquals
deriving DecidableEq, Repr

/-- A constant expression of the assembler: a literal, one of the two symbols, or a sum or difference of such, as in
`P-1` (30_encoding.md R41). -/
inductive ConstExpr where
  | literal (n : Nat)
  | symbolP
  | symbolEpsilon
  | plus (a b : ConstExpr)
  | minus (a b : ConstExpr)
deriving DecidableEq, Repr

/-- An operand of an assembler line: a constant, or a `%name` bound by an earlier line (30_encoding.md R41). -/
inductive AsmOperand where
  | const (e : ConstExpr)
  | named (name : String)
deriving DecidableEq, Repr

/-- `[%name =] <mnemonic> <x>, <y>` (30_encoding.md R41). -/
structure AsmLine where
  bind : Option String
  op : Op
  x : AsmOperand
  y : AsmOperand
deriving DecidableEq, Repr

end Sys2Proof
end

