-- ==== Sys2Proof/Config.lean ====
section
/-! DEFINITION. What the spec leaves open: the drawn response of an out-of-domain command, and the three parameters
marked OPEN (00_scope.md R4). No definition here has a body, so no proof can know a value. -/

namespace Sys2Proof

/-- FREE VALUE (DESIGN CHOICE of form, log entry 2; safe). `draw u64` of 60_exceptions.md R71: the response to the
`n`-th out-of-domain command since reset, when that command is `i`. The counter makes the draw of a repeated command a
fresh one. -/
opaque Config.draw (n : Nat) (i : Instr) : Word

/-- `LATENCY` (70_reset_and_hazards.md R85): finite for every command, perhaps different for each. Read by nothing. -/
opaque Config.latency (i : Instr) : Nat

/-- How many copies of the unit there are beside this one. Read by nothing. -/
opaque Config.furtherInstances : Nat

/-- `N_INSTANCES` (60_exceptions.md R78): a positive number. Read by nothing. -/
def Config.instances : Nat := Config.furtherInstances + 1

/-- The handshakes that 92_eei_decisions.md D2 names. -/
inductive Handshake where
  | absent
  | validOnly
  | validReady
deriving DecidableEq, Repr, Inhabited

/-- `HANDSHAKE` (10_state.md R14): not architecturally visible. Read by nothing. -/
opaque Config.handshake : Handshake

end Sys2Proof
end

