-- ==== Sys2Proof/Decode.lean ====
section
/-! DEFINITION. The select map, the decoder and the encoder (30_encoding.md R35, R37, R38, R43), and the same on the
numbering of spec/opcode_table.json; and the value of a constant expression of the assembler (30_encoding.md R41). -/

namespace Sys2Proof

/-- Why a command word has no instruction. -/
inductive DecodeError where
  /-- The select code is 7 (30_encoding.md R38). -/
  | reservedSelectCode
deriving DecidableEq, Repr

/-- The select code of each operation (30_encoding.md R37). -/
def Op.code : Op → SelectCode
  | .add => 0
  | .addFast => 1
  | .addWinterfell => 2
  | .mul => 3
  | .mulReduce159 => 4
  | .mulReduceMontgomery => 5
  | .montgomeryEquals => 6

/-- The operation of a select code; code 7 has none (30_encoding.md R37, R38). -/
def Op.ofCode (c : SelectCode) : Option Op :=
  match c.toNat with
  | 0 => some .add
  | 1 => some .addFast
  | 2 => some .addWinterfell
  | 3 => some .mul
  | 4 => some .mulReduce159
  | 5 => some .mulReduceMontgomery
  | 6 => some .montgomeryEquals
  | _ => none

/-- The operation with its operands (30_encoding.md R35: every operation uses both fields). -/
def Op.command (op : Op) (x y : Word) : Instr :=
  match op with
  | .add => .add x y
  | .addFast => .addFast x y
  | .addWinterfell => .addWinterfell x y
  | .mul => .mul x y
  | .mulReduce159 => .mulReduce159 x y
  | .mulReduceMontgomery => .mulReduceMontgomery x y
  | .montgomeryEquals => .montgomeryEquals x y

/-- The operation an instruction asks for. -/
def Instr.op : Instr → Op
  | .add _ _ => .add
  | .addFast _ _ => .addFast
  | .addWinterfell _ _ => .addWinterfell
  | .mul _ _ => .mul
  | .mulReduce159 _ _ => .mulReduce159
  | .mulReduceMontgomery _ _ => .mulReduceMontgomery
  | .montgomeryEquals _ _ => .montgomeryEquals

/-- The first operand field; `lhs` of the comparator (30_encoding.md R35). -/
def Instr.x : Instr → Word
  | .add x _ => x
  | .addFast x _ => x
  | .addWinterfell x _ => x
  | .mul x _ => x
  | .mulReduce159 x _ => x
  | .mulReduceMontgomery x _ => x
  | .montgomeryEquals lhs _ => lhs

/-- The second operand field; `rhs` of the comparator (30_encoding.md R35). -/
def Instr.y : Instr → Word
  | .add _ y => y
  | .addFast _ y => y
  | .addWinterfell _ y => y
  | .mul _ y => y
  | .mulReduce159 _ y => y
  | .mulReduceMontgomery _ y => y
  | .montgomeryEquals _ rhs => rhs

/-- The mnemonic of the assembler, the source's function name (30_encoding.md R37, R41). -/
def Op.mnemonic : Op → String
  | .add => "add"
  | .addFast => "add_fast"
  | .addWinterfell => "add_winterfell"
  | .mul => "mul"
  | .mulReduce159 => "mul_reduce159"
  | .mulReduceMontgomery => "mul_reduce_montgomery"
  | .montgomeryEquals => "montgomery_equals"

/-- `CMD[130:128]` (30_encoding.md R35). -/
def selectField (cmd : CommandWord) : SelectCode := cmd.extractLsb' 128 3

/-- `CMD[127:64]` (30_encoding.md R35). -/
def xField (cmd : CommandWord) : Word := cmd.extractLsb' 64 64

/-- `CMD[63:0]` (30_encoding.md R35). -/
def yField (cmd : CommandWord) : Word := cmd.extractLsb' 0 64

/-- `decode : u131 -> Op + Invalid` (30_encoding.md R43). -/
def decode (cmd : CommandWord) : Except DecodeError Instr :=
  match Op.ofCode (selectField cmd) with
  | some op => .ok (op.command (xField cmd) (yField cmd))
  | none => .error .reservedSelectCode

/-- `encode(op, x, y)`, the concatenation `op ‖ x ‖ y` (30_encoding.md R35, R43). -/
def encode (i : Instr) : CommandWord :=
  i.op.code ++ (i.x ++ i.y)

/-- The command word whose bits are `w`, numbered as spec/opcode_table.json numbers them: the command is one word, so
the numbering is that of R35 itself. The `nbits` of a row in whole bytes exceed 131 by padding that the 131-bit port
does not have (DESIGN CHOICE, log entry 8). -/
def tableCommand (nbits w : Nat) : CommandWord :=
  BitVec.ofNat 131 (w % 2 ^ nbits)

/-- The instruction that the decoder reads from an opcode-table word. -/
def decodeTableWord (nbits w : Nat) : Option Instr :=
  (decode (tableCommand nbits w)).toOption

/-- The value of a constant expression; `P` and `EPSILON` are the constants of 10_state.md R11. That it is computed
exactly over the integers, with no bound on its parts, is the model's choice (log entry 7, DESIGN CHOICE). -/
def ConstExpr.value : ConstExpr → Int
  | .literal n => n
  | .symbolP => 18446744069414584321
  | .symbolEpsilon => 4294967295
  | .plus a b => a.value + b.value
  | .minus a b => a.value - b.value

end Sys2Proof
end

