-- ==== Sys2Proof/Machine/Operands.lean ====
section
/-! DEFINITION. The operand domain (10_state.md R23), and the slices of a wide value and of a word that the multiplier's
rules take by bit position (41_modular_multiplier.md R56, R57, R63). -/

namespace Sys2Proof.Machine

/-- A canonical operand lies in [0, P) (10_state.md R12, R23). -/
def isCanonical (v : Word) : Bool := decide (v < modulus)

/-- `T[63:0]`. -/
def lowWord (t : Wide) : Word := t.extractLsb' 0 64

/-- `T[127:64]`. -/
def highWord (t : Wide) : Word := t.extractLsb' 64 64

/-- `v[31:0]`. -/
def lowLimb (v : Word) : Limb := v.extractLsb' 0 32

/-- `v[63:32]`. -/
def highLimb (v : Word) : Limb := v.extractLsb' 32 32

end Sys2Proof.Machine
end

