-- ==== Sys2Proof/Machine/State.lean ====
section
/-! DEFINITION. The state of the model, its reset, and the reasons a step can stop. The hardware itself has no
architectural state (10_state.md R10, R15 to R22): what stands here is the model's own bookkeeping, which R10 allows. -/

namespace Sys2Proof.Machine

/-- One transaction: the command that was presented and the response it got (70_reset_and_hazards.md R87). -/
structure Transaction where
  command : Instr
  response : Word
deriving DecidableEq, Repr

/-- The model's bookkeeping around a unit that retains nothing between transactions (10_state.md R10). -/
structure State where
  /-- The commands that the host has presented and that are not answered yet, oldest first. -/
  pending : List CommandWord
  /-- The answered transactions, oldest first: the observable outcome of a run (70_reset_and_hazards.md R87). -/
  history : List Transaction
  /-- How many responses were draws: the index of the next free value (60_exceptions.md R71; log entry 2). -/
  draws : Nat
deriving DecidableEq, Repr

/-- The machine has no fault: "No operation raises, returns or signals an error" (60_exceptions.md R70), so no
constructor exists and no one raises one. -/
inductive Fault where
deriving DecidableEq, Repr

/-- Why a step answers no next state. -/
inductive Refusal where
  /-- Raised by an arm of `exec` whose instruction has no meaning yet. Safe: nothing can be proved of a step that stops. -/
  | notModelled (mnemonic : String)
  /-- Raised by `step` on a command word with select code 7 (30_encoding.md R38, log entry 3). Safe: the hardware gives
  some response there and goes on, and the model stops. -/
  | reservedSelectCode
deriving DecidableEq, Repr

/-- After reset no command is presented, nothing has been answered and nothing drawn. The spec's list of reset values is
empty (10_state.md R22, 70_reset_and_hazards.md R80); these are the bookkeeping's own (log entries 1 and 2). -/
def State.reset : State where
  pending := []
  history := []
  draws := 0

end Sys2Proof.Machine
end

