-- ==== Sys2Proof/Machine/Ops.lean ====
section
/-! DEFINITION. What a transaction does to the bookkeeping, and what the host can do to the unit from outside. There is
no exception entry and no return to write: the unit has no trap mechanism (60_exceptions.md R70, R75, R76). -/

namespace Sys2Proof.Machine

/-- The response `z` is driven for the command `i` and the transaction is observed (10_state.md R14,
70_reset_and_hazards.md R87). Nothing else changes (10_state.md R10). -/
def State.respond (s : State) (i : Instr) (z : Word) : State :=
  { s with history := s.history ++ [{ command := i, response := z }] }

/-- `z <- draw u64` (60_exceptions.md R71): the response is the next free value. -/
def State.respondDraw (s : State) (i : Instr) : State :=
  { s with
    history := s.history ++ [{ command := i, response := Config.draw s.draws i }]
    draws := s.draws + 1 }

/-- An arithmetic operation: on canonical operands its datapath gives the response, and otherwise the response is a draw
with no signal (40_modular_adder.md R45, 41_modular_multiplier.md R54, 60_exceptions.md R71). -/
def answerArithmetic (datapath : Word → Word → Word) (i : Instr) (x y : Word) (s : State) :
    Host.Outcome State Fault Refusal :=
  if isCanonical x && isCanonical y then .next (s.respond i (datapath x y)) else .next (s.respondDraw i)

/-- An operation that takes any operands (42_field_equality.md R65). -/
def answerAny (datapath : Word → Word → Word) (i : Instr) (x y : Word) (s : State) :
    Host.Outcome State Fault Refusal :=
  .next (s.respond i (datapath x y))

/-- The oldest command not answered yet, decoded; none when the host presents no command. -/
def State.fetch (s : State) : Option (Except DecodeError Instr) :=
  s.pending.head?.map decode

/-- The oldest command is taken: its transaction begins (20_memory.md R30: responses come in command order). -/
def State.accept (s : State) : State :=
  { s with pending := s.pending.tail }

/-- The machine's refusal of a command word that the decoder calls invalid (30_encoding.md R38). -/
def refusalOf : DecodeError → Refusal
  | .reservedSelectCode => .reservedSelectCode

/-- The host presents a command after those it presented before (70_reset_and_hazards.md R86). -/
def State.present (s : State) (cmd : CommandWord) : State :=
  { s with pending := s.pending ++ [cmd] }

/-- The command in question is put where the next step takes it. -/
def State.presentNext (s : State) (cmd : CommandWord) : State :=
  { s with pending := cmd :: s.pending }

/-- The optional reset input is asserted and released: a command not answered by then gets no response, and what was
observed stays observed (70_reset_and_hazards.md R80, R86; log entry 5). -/
def State.assertReset (s : State) : State :=
  { s with pending := [] }

end Sys2Proof.Machine
end

