-- ==== Sys2Proof/Machine/Adder.lean ====
section
/-! DEFINITION. The modular adder: ADD, ADD_FAST, ADD_WINTERFELL (40_modular_adder.md R46, R47, R48). -/

namespace Sys2Proof.Machine

/-- The pseudocode of 40_modular_adder.md R46. -/
def addResult (x y : Word) : Word :=
  let xs := zext128 x
  let ys := zext128 y
  let s := xs + ys
  let q := s % modulusWide
  lowWord q

/-- The pseudocode of 40_modular_adder.md R47; the threshold is "at least P". -/
def addFastResult (x y : Word) : Word :=
  let s := zext128 x + zext128 y
  let s := if modulusWide ≤ s then s - modulusWide else s
  lowWord s

/-- The pseudocode of 40_modular_adder.md R48; `EPSILON` is subtracted when the borrow is 1 (90_conflicts.md C1). -/
def addWinterfellResult (x y : Word) : Word :=
  let t := wrapSub64 modulus y
  let difference := ovfSub64 x t
  let r := difference.1
  let bw := difference.2
  let m32 := mask32 bw
  wrapSub64 r (zext64 m32)

/-- ADD (40_modular_adder.md R45, R46). -/
def execAdd (x y : Word) (s : State) : Host.Outcome State Fault Refusal :=
  answerArithmetic addResult (.add x y) x y s

/-- ADD_FAST (40_modular_adder.md R45, R47). -/
def execAddFast (x y : Word) (s : State) : Host.Outcome State Fault Refusal :=
  answerArithmetic addFastResult (.addFast x y) x y s

/-- ADD_WINTERFELL (40_modular_adder.md R45, R48). -/
def execAddWinterfell (x y : Word) (s : State) : Host.Outcome State Fault Refusal :=
  answerArithmetic addWinterfellResult (.addWinterfell x y) x y s

end Sys2Proof.Machine
end

