-- ==== Sys2Proof/Machine/Comparator.lean ====
section
/-! DEFINITION. The field equality comparator: MONTGOMERY_EQUALS (42_field_equality.md R65). -/

namespace Sys2Proof.Machine

/-- The pseudocode of 42_field_equality.md R65; the Boolean travels as the word 1 or 0 (30_encoding.md R36). -/
def montgomeryEqualsResult (lhs rhs : Word) : Word :=
  let t := lhs ^^^ rhs
  if t = 0#64 then 0x0000000000000001#64 else 0x0000000000000000#64

/-- The informative formula of 42_field_equality.md R65, `1 - shr64(t or wrap_sub64(0, t), 63)`: one branchless way to
test `t == 0`. No meaning uses it. -/
def signBitZeroTest (t : Word) : Word :=
  wrapSub64 1 (shr64 (t ||| wrapSub64 0 t) 63)

/-- MONTGOMERY_EQUALS (42_field_equality.md R65): any operands, never a draw. -/
def execMontgomeryEquals (lhs rhs : Word) (s : State) : Host.Outcome State Fault Refusal :=
  answerAny montgomeryEqualsResult (.montgomeryEquals lhs rhs) lhs rhs s

end Sys2Proof.Machine
end

