-- ==== Sys2Proof/Machine/Multiplier.lean ====
section
/-! DEFINITION. The modular multiplier: MUL, MUL_REDUCE159, MUL_REDUCE_MONTGOMERY (41_modular_multiplier.md R55, R56,
R57). -/

namespace Sys2Proof.Machine

/-- The pseudocode of 41_modular_multiplier.md R55. -/
def mulResult (x y : Word) : Word :=
  let t := zext128 x * zext128 y
  let q := t % modulusWide
  lowWord q

/-- The pseudocode of 41_modular_multiplier.md R56: the underflow correction is subtracted (90_conflicts.md C2), and a
final conditional subtraction of P ends it (90_conflicts.md C3). -/
def mulReduce159Result (x y : Word) : Word :=
  let t := umul128 x y
  let ab := lowWord t
  let cd := highWord t
  let c := lowLimb cd
  let d := highLimb cd
  let difference := ovfSub64 ab (zext64 d)
  let u := difference.2
  let t0 := if u = 1 then wrapSub64 difference.1 epsilon else difference.1
  let t1 := wrapSub64 (shl64 (zext64 c) 32) (zext64 c)
  let sum := ovfAdd64 t0 t1
  let o := sum.2
  let s := if o = 1 then wrapAdd64 sum.1 epsilon else sum.1
  if modulus ≤ s then s - modulus else s

/-- The pseudocode of 41_modular_multiplier.md R57, which has no final conditional subtraction. -/
def mulReduceMontgomeryResult (x y : Word) : Word :=
  let t := umul128 x y
  let xl := lowWord t
  let xh := highWord t
  let sum := ovfAdd64 xl (shl64 xl 32)
  let a := sum.1
  let e := sum.2
  let b := wrapSub64 (wrapSub64 a (shr64 a 32)) (zext64 e)
  let difference := ovfSub64 xh b
  let r := difference.1
  let c := difference.2
  let m32 := mask32 c
  wrapSub64 r (zext64 m32)

/-- MUL (41_modular_multiplier.md R54, R55). -/
def execMul (x y : Word) (s : State) : Host.Outcome State Fault Refusal :=
  answerArithmetic mulResult (.mul x y) x y s

/-- MUL_REDUCE159 (41_modular_multiplier.md R54, R56). -/
def execMulReduce159 (x y : Word) (s : State) : Host.Outcome State Fault Refusal :=
  answerArithmetic mulReduce159Result (.mulReduce159 x y) x y s

/-- MUL_REDUCE_MONTGOMERY (41_modular_multiplier.md R54, R57). -/
def execMulReduceMontgomery (x y : Word) (s : State) : Host.Outcome State Fault Refusal :=
  answerArithmetic mulReduceMontgomeryResult (.mulReduceMontgomery x y) x y s

end Sys2Proof.Machine
end

