-- ==== Sys2Proof/Machine/Dispatch.lean ====
section
/-! DEFINITION. The meaning of each instruction, by name. -/

namespace Sys2Proof.Machine

/-- One transaction of the unit: the response to a decoded command (10_state.md R10, 30_encoding.md R37). -/
def exec (i : Instr) (s : State) : Host.Outcome State Fault Refusal :=
  match i with
  | .add x y => Sys2Proof.Machine.execAdd x y s
  | .addFast x y => Sys2Proof.Machine.execAddFast x y s
  | .addWinterfell x y => Sys2Proof.Machine.execAddWinterfell x y s
  | .mul x y => Sys2Proof.Machine.execMul x y s
  | .mulReduce159 x y => Sys2Proof.Machine.execMulReduce159 x y s
  | .mulReduceMontgomery x y => Sys2Proof.Machine.execMulReduceMontgomery x y s
  | .montgomeryEquals lhs rhs => Sys2Proof.Machine.execMontgomeryEquals lhs rhs s

end Sys2Proof.Machine
end

