-- ==== Sys2Proof/Machine/Step.lean ====
section
/-! DEFINITION. One step is one transaction (00_scope.md section 6, 92_eei_decisions.md D1). -/

namespace Sys2Proof.Machine

/-- The oldest command not answered yet is taken and answered. A reserved select code is refused before any operand is
looked at (60_exceptions.md R74). With no command presented nothing happens (70_reset_and_hazards.md R87; DESIGN CHOICE,
log entry 6). -/
def step (s : State) : Host.Outcome State Fault Refusal :=
  match s.fetch with
  | none => .next s
  | some (.ok i) => exec i s.accept
  | some (.error e) => .refused (refusalOf e)

/-- The command of an opcode-table word is presented as the one that the next step takes (log entry 8). -/
def State.withFetchWord (s : State) (nbits w : Nat) : State :=
  s.presentNext (tableCommand nbits w)

end Sys2Proof.Machine
end

