-- ==== Sys2Proof/WellFormed.lean ====
section
/-! DEFINITION. The checks on what the host writes: a command word and an assembler line. An `Instr` needs none: it
carries its operands at the width of the ports, and every 64-bit pattern is a legal operand field (30_encoding.md R38),
so every term of `Instr` is a well-formed instruction. -/

namespace Sys2Proof

/-- A command word spells an operation unless its select code is 7 (30_encoding.md R38). -/
def wellFormedCommand (cmd : CommandWord) : Bool := selectField cmd != 7#3

/-- A constant operand lies in [0, 2^64), and a name is bound by an earlier line (30_encoding.md R41). Of an expression
only the final value must lie there, not its literals and partial sums (log entry 7, DESIGN CHOICE). -/
def AsmOperand.wellFormed (bound : List String) : AsmOperand → Bool
  | .const e => decide (0 ≤ e.value) && decide (e.value < 2 ^ 64)
  | .named n => bound.contains n

/-- A line is well formed when both its operands are. -/
def AsmLine.wellFormed (bound : List String) (l : AsmLine) : Bool :=
  l.x.wellFormed bound && l.y.wellFormed bound

/-- The names bound after a line. -/
def AsmLine.binds (bound : List String) (l : AsmLine) : List String :=
  match l.bind with
  | some n => n :: bound
  | none => bound

/-- Every line of a program is well formed under the names bound before it (30_encoding.md R41). -/
def wellFormedLines (bound : List String) : List AsmLine → Bool
  | [] => true
  | l :: ls => l.wellFormed bound && wellFormedLines (l.binds bound) ls

end Sys2Proof
end

