-- ==== Sys2Proof/Machine/Assembler.lean ====
section
/-! DEFINITION. The host's side of 30_encoding.md R41: the text of a command, the resolution of a line to one command,
and the binding of responses to names. The unit sees only the resolved command (10_state.md R16). What R41 leaves open of
the grammar is log entry 7. -/

namespace Sys2Proof.Machine

/-- Why a line of text is no command. -/
inductive AsmError where
  /-- The line is not `[%name =] <mnemonic> <x>, <y>`. -/
  | badForm
  /-- The first word is no mnemonic. -/
  | unknownMnemonic
  /-- A name is empty or holds another character than a letter, a digit or an underscore. -/
  | badName
  /-- The final value of a constant lies outside [0, 2^64). -/
  | outOfRange
  /-- A name is bound by no earlier line. -/
  | unboundName
  /-- The unit gave no response. -/
  | noResponse
deriving DecidableEq, Repr

/-- What a line of text is made of. -/
inductive Token where
  | word (cs : List Char)
  | comma
  | equals
  | plus
  | minus
deriving DecidableEq, Repr

/-- The tokens that are single characters. -/
def symbolToken (c : Char) : Option Token :=
  if c = ',' then some .comma
  else if c = '=' then some .equals
  else if c = '+' then some .plus
  else if c = '-' then some .minus
  else none

/-- The word read so far, if any, before the tokens after it. -/
def flushWord (acc : List Char) (rest : List Token) : List Token :=
  if acc.isEmpty then rest else .word acc.reverse :: rest

/-- The tokens of a line; a comment runs from `;` to its end (30_encoding.md R41). White space separates tokens and is
needed only between words (log entry 7, DESIGN CHOICE). -/
def tokenize (acc : List Char) : List Char → List Token
  | [] => flushWord acc []
  | c :: cs =>
    if c = ';' then flushWord acc []
    else match symbolToken c with
      | some t => flushWord acc (t :: tokenize [] cs)
      | none => if c.isWhitespace then flushWord acc (tokenize [] cs) else tokenize (c :: acc) cs

/-- The value of a digit, decimal or hexadecimal. -/
def digitValue (c : Char) : Option Nat :=
  if '0'.toNat ≤ c.toNat ∧ c.toNat ≤ '9'.toNat then some (c.toNat - '0'.toNat)
  else if 'A'.toNat ≤ c.toNat ∧ c.toNat ≤ 'F'.toNat then some (c.toNat - 'A'.toNat + 10)
  else if 'a'.toNat ≤ c.toNat ∧ c.toNat ≤ 'f'.toNat then some (c.toNat - 'a'.toNat + 10)
  else none

/-- Digits in a base, most significant first; an underscore inside separates only (00_scope.md R5). -/
def digits (base acc : Nat) : List Char → Option Nat
  | [] => some acc
  | c :: cs =>
    if c = '_' then digits base acc cs
    else match digitValue c with
      | some d => if d < base then digits base (acc * base + d) cs else none
      | none => none

/-- A literal of a base, which begins and ends with a digit. -/
def digitsOf (base : Nat) (cs : List Char) : Option Nat :=
  if cs.isEmpty || cs.head? == some '_' || cs.getLast? == some '_' then none else digits base 0 cs

/-- An unsigned literal, decimal or `0x` hexadecimal. -/
def numeral : List Char → Option Nat
  | '0' :: 'x' :: cs => digitsOf 16 cs
  | cs => digitsOf 10 cs

/-- A symbol or a literal. -/
def constAtom (cs : List Char) : Option ConstExpr :=
  if cs = ['P'] then some .symbolP
  else if cs = ['E', 'P', 'S', 'I', 'L', 'O', 'N'] then some .symbolEpsilon
  else (numeral cs).map .literal

/-- The rest of a sum or difference, read from the left, and the tokens after it. A name takes no part in one (log entry
7, DESIGN CHOICE). -/
def constRest (e : ConstExpr) : List Token → Option (ConstExpr × List Token)
  | .plus :: .word w :: ts =>
    match constAtom w with
    | some a => constRest (.plus e a) ts
    | none => none
  | .minus :: .word w :: ts =>
    match constAtom w with
    | some a => constRest (.minus e a) ts
    | none => none
  | ts => some (e, ts)

/-- The characters of a name. -/
def isName (cs : List Char) : Bool :=
  !cs.isEmpty && cs.all fun c => c.isAlphanum || c == '_'

/-- One operand and the tokens after it. -/
def asmOperand : List Token → Except AsmError (AsmOperand × List Token)
  | .word ('%' :: n) :: ts => if isName n then .ok (.named (String.ofList n), ts) else .error .badName
  | .word w :: ts =>
    match constAtom w with
    | some a =>
      match constRest a ts with
      | some (e, ts') => .ok (.const e, ts')
      | none => .error .badForm
    | none => .error .badForm
  | _ => .error .badForm

/-- The operation of a mnemonic (30_encoding.md R37, R41). -/
def opOfMnemonic (m : String) : Option Op :=
  [Op.add, Op.addFast, Op.addWinterfell, Op.mul, Op.mulReduce159, Op.mulReduceMontgomery, Op.montgomeryEquals].find?
    fun op => op.mnemonic == m

/-- `<mnemonic> <x>, <y>` under an optional binding. -/
def asmCommand (bind : Option String) : List Token → Except AsmError AsmLine
  | .word m :: ts =>
    match opOfMnemonic (String.ofList m) with
    | none => .error .unknownMnemonic
    | some op =>
      match asmOperand ts with
      | .ok (x, .comma :: ts') =>
        match asmOperand ts' with
        | .ok (y, []) => .ok { bind := bind, op := op, x := x, y := y }
        | .ok _ => .error .badForm
        | .error e => .error e
      | .ok _ => .error .badForm
      | .error e => .error e
  | _ => .error .badForm

/-- The line that a text spells; none for a line that is blank or only a comment (30_encoding.md R41). -/
def parseLine (text : String) : Except AsmError (Option AsmLine) :=
  match tokenize [] text.toList with
  | [] => .ok none
  | .word ('%' :: n) :: .equals :: ts =>
    if isName n then (asmCommand (some (String.ofList n)) ts).map some else .error .badName
  | ts => (asmCommand none ts).map some

/-- The word an operand stands for under the names bound so far: a literal in [0, 2^64) or a bound name (30_encoding.md
R41). R41 gives an expression "its value" and is silent on its parts; that only the final value must lie in [0, 2^64), so
that a literal or a partial sum inside an expression may lie outside it, is the model's choice (log entry 7, DESIGN
CHOICE). -/
def resolveOperand (names : List (String × Word)) : AsmOperand → Except AsmError Word
  | .const e => if 0 ≤ e.value ∧ e.value < 2 ^ 64 then .ok (BitVec.ofInt 64 e.value) else .error .outOfRange
  | .named n =>
    match names.lookup n with
    | some v => .ok v
    | none => .error .unboundName

/-- A line stands for exactly one command, with its own mnemonic: there are no pseudo-instructions (30_encoding.md
R41). -/
def resolveLine (names : List (String × Word)) (l : AsmLine) : Except AsmError Instr :=
  match resolveOperand names l.x, resolveOperand names l.y with
  | .ok x, .ok y => .ok (l.op.command x y)
  | .error e, _ => .error e
  | _, .error e => .error e

/-- A host that runs assembler lines: the unit, and the names bound to responses, the latest first. -/
structure Session where
  unit : State
  names : List (String × Word)
deriving DecidableEq, Repr

/-- The host resolves a line, presents its command and binds the response (30_encoding.md R41, 10_state.md R16). Every
earlier command is taken to be answered, as it is after a session's own lines. -/
def runLine (h : Session) (l : AsmLine) : Except AsmError Session :=
  match resolveLine h.names l with
  | .error e => .error e
  | .ok i =>
    match step (h.unit.present (encode i)) with
    | .next s =>
      match s.history.getLast? with
      | some t =>
        .ok { unit := s, names := match l.bind with | some n => (n, t.response) :: h.names | none => h.names }
      | none => .error .noResponse
    | .fault _ => .error .noResponse
    | .refused _ => .error .noResponse

end Sys2Proof.Machine
end

