-- ==== Sys2Proof/Safety.lean ====
section
/-! DEFINITION. The terms that claims are made in: the host's duty, the field values that the rules promise, what it is
for a command to be answered, and the invariant of the bookkeeping. -/

namespace Sys2Proof.Machine

/-- P as a natural number (00_scope.md R4). -/
abbrev fieldModulus : Nat := 18446744069414584321

/-- 2^-64 mod P (10_state.md R13). -/
abbrev radixInverse : Nat := 0xFFFFFFFE00000001

/-- `true_value(v) = v mod P` (00_scope.md glossary, 10_state.md R13). -/
def trueValue (v : Word) : Nat := v.toNat % fieldModulus

/-- The host's duty on operands: canonical for the six arithmetic operations, anything for the comparator (10_state.md
R23, 70_reset_and_hazards.md R86). -/
def inDomain : Instr → Bool
  | .add x y => isCanonical x && isCanonical y
  | .addFast x y => isCanonical x && isCanonical y
  | .addWinterfell x y => isCanonical x && isCanonical y
  | .mul x y => isCanonical x && isCanonical y
  | .mulReduce159 x y => isCanonical x && isCanonical y
  | .mulReduceMontgomery x y => isCanonical x && isCanonical y
  | .montgomeryEquals _ _ => true

/-- The response that the rules promise a command in its domain, in integer arithmetic, whichever datapath computes it
(40_modular_adder.md R46 to R48, 41_modular_multiplier.md R55 to R57, R61, 42_field_equality.md R65). -/
def promisedValue : Instr → Nat
  | .add x y => (x.toNat + y.toNat) % fieldModulus
  | .addFast x y => (x.toNat + y.toNat) % fieldModulus
  | .addWinterfell x y => (x.toNat + y.toNat) % fieldModulus
  | .mul x y => (x.toNat * y.toNat) % fieldModulus
  | .mulReduce159 x y => (x.toNat * y.toNat) % fieldModulus
  | .mulReduceMontgomery x y => (x.toNat * y.toNat * radixInverse) % fieldModulus
  | .montgomeryEquals lhs rhs => if lhs.toNat = rhs.toNat then 1 else 0

/-- In every state of the unit, the command `i` is answered `z`, and nothing else changes. -/
def Answers (i : Instr) (z : Word) : Prop :=
  ∀ s : State, exec i s = .next { s with history := s.history ++ [{ command := i, response := z }] }

/-- A transaction whose command was in its domain has the response the rules promise; any other has no constraint
(60_exceptions.md R71). -/
def keepsContract (t : Transaction) : Bool :=
  !inDomain t.command || t.response.toNat == promisedValue t.command

/-- The invariant: every observed transaction keeps the contract, and one draw was made for each observed transaction
outside its domain. -/
def State.inv (s : State) : Bool :=
  s.history.all keepsContract && s.draws == s.history.countP (fun t => !inDomain t.command)

/-- The command words of a run so far, answered and not yet answered, in the order they were presented. -/
def commandOrder (s : State) : List CommandWord :=
  s.history.map (fun t => encode t.command) ++ s.pending

/-- The canonicalisation that a host owes a word it may not know to be canonical: `if v >= P then v - P`
(70_reset_and_hazards.md R83). The unit has no such operation. -/
def canonicalise (v : Word) : Word := if modulus ≤ v then v - modulus else v

/-- The three addition variants (40_modular_adder.md R49, R50). -/
def additions : List (Word → Word → Instr) := [.add, .addFast, .addWinterfell]

/-- The two multiplications that return the plain product (41_modular_multiplier.md R58, R60). -/
def multiplications : List (Word → Word → Instr) := [.mul, .mulReduce159]

end Sys2Proof.Machine
end

