-- ==== Sys2Proof/Certificates/Slice0/Obligations.lean ====
section
/-! DEFINITION. What the provers are asked to settle. Each statement's docstring says which rule of spec/ it
formalises. -/

open Sys2Proof Sys2Proof.Machine

/-! ### Encoding -/

/-- 30_encoding.md R43, whole: decoding is total and invalid exactly at select code 7; any other word gives the operation
of its code with the two operand fields; encoding is the sum of the three weighted fields; and decoding an encoded
command gives it back, for every operation and all operands. -/
def Obligations.DecodeAndEncodeAgree : Prop :=
  (∀ cmd : CommandWord, decode cmd = .error .reservedSelectCode ↔ cmd.extractLsb' 128 3 = 7#3) ∧
  (∀ cmd : CommandWord, cmd.extractLsb' 128 3 ≠ 7#3 →
    ∃ op : Op, op.code = cmd.extractLsb' 128 3 ∧
      decode cmd = .ok (op.command (cmd.extractLsb' 64 64) (cmd.extractLsb' 0 64))) ∧
  (∀ (op : Op) (x y : Word),
    (encode (op.command x y)).toNat = op.code.toNat * 2 ^ 128 + x.toNat * 2 ^ 64 + y.toNat) ∧
  (∀ i : Instr, decode (encode i) = .ok i)

/-- 30_encoding.md R43, the other direction: no bit of a command word is lost by decoding it. -/
def Obligations.EncodeInvertsDecode : Prop :=
  ∀ (cmd : CommandWord) (i : Instr), decode cmd = .ok i → encode i = cmd

/-- 30_encoding.md R37, whole: the seven-way selection on the top three bits, with the names of the assembler. -/
def Obligations.SelectCodesSpellOperations : Prop :=
  (∀ x y : Word,
    decode (0#3 ++ (x ++ y)) = .ok (.add x y) ∧
    decode (1#3 ++ (x ++ y)) = .ok (.addFast x y) ∧
    decode (2#3 ++ (x ++ y)) = .ok (.addWinterfell x y) ∧
    decode (3#3 ++ (x ++ y)) = .ok (.mul x y) ∧
    decode (4#3 ++ (x ++ y)) = .ok (.mulReduce159 x y) ∧
    decode (5#3 ++ (x ++ y)) = .ok (.mulReduceMontgomery x y) ∧
    decode (6#3 ++ (x ++ y)) = .ok (.montgomeryEquals x y) ∧
    decode (7#3 ++ (x ++ y)) = .error .reservedSelectCode) ∧
  Op.mnemonic .add = "add" ∧ Op.mnemonic .addFast = "add_fast" ∧
  Op.mnemonic .addWinterfell = "add_winterfell" ∧ Op.mnemonic .mul = "mul" ∧
  Op.mnemonic .mulReduce159 = "mul_reduce159" ∧
  Op.mnemonic .mulReduceMontgomery = "mul_reduce_montgomery" ∧
  Op.mnemonic .montgomeryEquals = "montgomery_equals"

/-- 95_test_vectors.md section 2.8, vectors V-D1, V-D5, V-D7, V-D8: four command words as the spec writes them out. -/
def Obligations.SampleWordsDecode : Prop :=
  decode 0x000000000000000050000000000000007#131 = .ok (.add 5 7) ∧
  decode 0x400000000000000050000000000000007#131 = .ok (.mulReduce159 5 7) ∧
  decode 0x600000000000000050000000000000007#131 = .ok (.montgomeryEquals 5 7) ∧
  decode 0x700000000000000050000000000000007#131 = .error .reservedSelectCode

/-- 30_encoding.md R38: a command with select code 7 is refused by name whatever else the machine holds; codes 0 to 6
decode for every value of the other 128 bits; and a command word is refused for no other reason, so that dropping a
reserved command leaves every later one to be answered. -/
def Obligations.ReservedCodeIsRefused : Prop :=
  (∀ (s : State) (cmd : CommandWord) (rest : List CommandWord), s.pending = cmd :: rest →
    (step s = .refused .reservedSelectCode ↔ cmd.extractLsb' 128 3 = 7#3)) ∧
  (∀ (cmd : CommandWord), cmd.extractLsb' 128 3 ≠ 7#3 → ∃ i, decode cmd = .ok i) ∧
  (∀ (s : State) (bad cmd : CommandWord) (rest : List CommandWord), s.pending = bad :: cmd :: rest →
    bad.extractLsb' 128 3 = 7#3 → cmd.extractLsb' 128 3 ≠ 7#3 → ∃ t, step s.accept = .next t)

/-- 60_exceptions.md section 3 (R74): the reserved code is decided before any operand is looked at, and two
non-canonical operands together are one out-of-domain case: one response and one draw, not two. That draws are counted,
and the count's advance by one, are the model's choice (log entry 2, DESIGN CHOICE). -/
def Obligations.EventsOfOneCommandDoNotCompete : Prop :=
  (∀ (x y : Word) (s : State), step (s.presentNext (7#3 ++ (x ++ y))) = .refused .reservedSelectCode) ∧
  (∀ A ∈ additions ++ multiplications ++ [Instr.mulReduceMontgomery], ∀ (x y : Word) (s : State),
    fieldModulus ≤ x.toNat → fieldModulus ≤ y.toNat →
    ∃ z, exec (A x y) s =
      .next { s with history := s.history ++ [{ command := A x y, response := z }], draws := s.draws + 1 })

/-! ### The step -/

/-- 92_eei_decisions.md D1 and 20_memory.md R28, R30: a step at a presented command that decodes to an instruction is
`exec` of that instruction once the command is taken from the front. The last clause, that a step with no command
presented changes nothing, is the model's choice (log entry 6). -/
def Obligations.StepRunsDecodedInstruction : Prop :=
  (∀ (s : State) (cmd : CommandWord) (rest : List CommandWord) (i : Instr),
    s.pending = cmd :: rest → decode cmd = .ok i → step s = exec i { s with pending := rest }) ∧
  (∀ s : State, s.pending = [] → step s = .next s)

/-- 60_exceptions.md R70, whole: every operation completes on all operands in every state, no error is a possible
outcome, and the type of faults is empty. -/
def Obligations.EveryOperationAnswers : Prop :=
  (∀ (i : Instr) (s : State), ∃ (z : Word) (n : Nat),
    exec i s = .next
      { pending := s.pending, history := s.history ++ [{ command := i, response := z }], draws := n }) ∧
  IsEmpty Fault

/-- 10_state.md R10, R17, R18 and 20_memory.md R28: what every one of the seven operations leaves unchanged. One
transaction is added to what is observed, and the commands still to be answered stay. The unit has no register, flag or
memory that could change. The last clause, that the count of draws moves by one outside the domain and stays inside it,
is no rule of the spec: the count is the model's choice (log entry 2, DESIGN CHOICE). -/
def Obligations.FrameOfEveryOperation : Prop :=
  ∀ (i : Instr) (s t : State), exec i s = .next t →
    t.pending = s.pending ∧
    (∃ z, t.history = s.history ++ [{ command := i, response := z }]) ∧
    t.draws = if inDomain i then s.draws else s.draws + 1

/-- 10_state.md R10 and 20_memory.md R30: the response to a command in its domain is one word, the same in every state. -/
def Obligations.ResponseIsFunctionOfCommand : Prop :=
  ∀ i : Instr, inDomain i = true → ∃! z : Word, Answers i z

/-- 60_exceptions.md R71: which commands are out of their domain, and what such a command does: it completes with a
drawn response and nothing else happens. That the draw is indexed by a counter, and the counter's advance, are the
model's choice (log entry 2); the statement holds for every value of the free value. -/
def Obligations.OutOfDomainResponseIsDrawn : Prop :=
  (∀ A ∈ additions ++ multiplications ++ [Instr.mulReduceMontgomery], ∀ x y : Word,
    inDomain (A x y) = false ↔ fieldModulus ≤ x.toNat ∨ fieldModulus ≤ y.toNat) ∧
  (∀ lhs rhs : Word, inDomain (.montgomeryEquals lhs rhs) = true) ∧
  (∀ (i : Instr) (s : State), inDomain i = false →
    exec i s = .next
      { s with
        history := s.history ++ [{ command := i, response := Config.draw s.draws i }]
        draws := s.draws + 1 })

/-! ### Constants and words -/

/-- 10_state.md R11, whole: the three constants and the facts about them that the rules rely on. -/
def Obligations.ConstantsOfTheField : Prop :=
  modulus.toNat = 18446744069414584321 ∧ modulus.toNat = 2 ^ 64 - 2 ^ 32 + 1 ∧
  modulusWide.toNat = modulus.toNat ∧
  epsilon.toNat = 4294967295 ∧ epsilon.toNat = 2 ^ 32 - 1 ∧
  2 ^ 64 % modulus.toNat = epsilon.toNat ∧ 2 ^ 96 % modulus.toNat = modulus.toNat - 1 ∧
  modulus.toNat + epsilon.toNat = 2 ^ 64 ∧
  (∀ v : Word, (wrapSub64 v epsilon).toNat = (v.toNat + modulus.toNat) % 2 ^ 64) ∧
  (∀ v : Word, ((wrapAdd64 v epsilon).toNat : Int) = ((v.toNat : Int) - (modulus.toNat : Int)) % 2 ^ 64)

/-- 10_state.md R12: a word that is not canonical is congruent to exactly one canonical word, which is `v - P` and at
most 2^32 - 2. -/
def Obligations.NonCanonicalWordHasOneCanonical : Prop :=
  ∀ v : Word, fieldModulus ≤ v.toNat →
    (∃! w : Word, w.toNat < fieldModulus ∧ trueValue w = trueValue v) ∧
    (v - modulus).toNat < fieldModulus ∧ trueValue (v - modulus) = trueValue v ∧
    (v - modulus).toNat ≤ 2 ^ 32 - 2

/-! ### The modular adder -/

/-- 40_modular_adder.md R46: ADD on canonical operands answers (x + y) mod P, canonical, and changes nothing else. -/
def Obligations.AddIsSumModP : Prop :=
  ∀ (x y : Word) (s : State), x.toNat < fieldModulus → y.toNat < fieldModulus →
    selectField (encode (.add x y)) = 0#3 ∧ Op.mnemonic (Instr.op (.add x y)) = "add" ∧
    ∃ z : Word, z.toNat = (x.toNat + y.toNat) % fieldModulus ∧ z.toNat < fieldModulus ∧
      exec (.add x y) s = .next { s with history := s.history ++ [{ command := .add x y, response := z }] }

/-- 40_modular_adder.md R47: ADD_FAST on canonical operands subtracts P once when the exact sum is at least P, which
answers (x + y) mod P, canonical, and changes nothing else. -/
def Obligations.AddFastSubtractsAtLeastP : Prop :=
  ∀ (x y : Word) (s : State), x.toNat < fieldModulus → y.toNat < fieldModulus →
    selectField (encode (.addFast x y)) = 1#3 ∧ Op.mnemonic (Instr.op (.addFast x y)) = "add_fast" ∧
    ∃ z : Word,
      z.toNat = (if fieldModulus ≤ x.toNat + y.toNat then x.toNat + y.toNat - fieldModulus else x.toNat + y.toNat) ∧
      z.toNat = (x.toNat + y.toNat) % fieldModulus ∧ z.toNat < fieldModulus ∧
      exec (.addFast x y) s = .next { s with history := s.history ++ [{ command := .addFast x y, response := z }] }

/-- 40_modular_adder.md R48: the datapath of ADD_WINTERFELL on canonical operands. P - y does not wrap; the borrow of
x - (P - y) is 1 exactly when the sum is below P; the difference then exceeds the sum by EPSILON, and otherwise is the
reduced sum; the response is (x + y) mod P, canonical, and nothing else changes. -/
def Obligations.AddWinterfellBorrowAndMask : Prop :=
  ∀ (x y : Word) (s : State), x.toNat < fieldModulus → y.toNat < fieldModulus →
    selectField (encode (.addWinterfell x y)) = 2#3 ∧
    Op.mnemonic (Instr.op (.addWinterfell x y)) = "add_winterfell" ∧
    (wrapSub64 modulus y).toNat = fieldModulus - y.toNat ∧
    ((ovfSub64 x (wrapSub64 modulus y)).2 = 1 ↔ x.toNat + y.toNat < fieldModulus) ∧
    (ovfSub64 x (wrapSub64 modulus y)).1.toNat =
      (if x.toNat + y.toNat < fieldModulus then x.toNat + y.toNat + epsilon.toNat
       else x.toNat + y.toNat - fieldModulus) ∧
    ∃ z : Word, z.toNat = (x.toNat + y.toNat) % fieldModulus ∧ z.toNat < fieldModulus ∧
      exec (.addWinterfell x y) s =
        .next { s with history := s.history ++ [{ command := .addWinterfell x y, response := z }] }

/-- 40_modular_adder.md R49, whole: the three additions give the same word on canonical operands. -/
def Obligations.AdditionVariantsAgree : Prop :=
  ∀ x y : Word, x.toNat < fieldModulus → y.toNat < fieldModulus →
    ∃ z : Word, Answers (.add x y) z ∧ Answers (.addFast x y) z ∧ Answers (.addWinterfell x y) z

/-- 40_modular_adder.md R50, whole: each addition is commutative and associative with identity 0 on canonical operands,
intermediate results being canonical; and the plain multiplications distribute over it. -/
def Obligations.AdditionLaws : Prop :=
  ∀ A ∈ additions, ∀ x y w : Word,
    x.toNat < fieldModulus → y.toNat < fieldModulus → w.toNat < fieldModulus →
    (∃ z, Answers (A x y) z ∧ Answers (A y x) z) ∧
    (∃ u v z, Answers (A x y) u ∧ u.toNat < fieldModulus ∧ Answers (A y w) v ∧ v.toNat < fieldModulus ∧
      Answers (A u w) z ∧ Answers (A x v) z) ∧
    Answers (A x 0) x ∧ Answers (A 0 x) x ∧
    (∀ M ∈ multiplications, ∃ u p q z, Answers (A y w) u ∧ Answers (M x u) z ∧
      Answers (M x y) p ∧ Answers (M x w) q ∧ Answers (A p q) z)

/-! ### The modular multiplier -/

/-- 41_modular_multiplier.md R55: MUL on canonical operands answers (x * y) mod P, canonical, and changes nothing
else. -/
def Obligations.MulIsProductModP : Prop :=
  ∀ (x y : Word) (s : State), x.toNat < fieldModulus → y.toNat < fieldModulus →
    selectField (encode (.mul x y)) = 3#3 ∧ Op.mnemonic (Instr.op (.mul x y)) = "mul" ∧
    ∃ z : Word, z.toNat = (x.toNat * y.toNat) % fieldModulus ∧ z.toNat < fieldModulus ∧
      exec (.mul x y) s = .next { s with history := s.history ++ [{ command := .mul x y, response := z }] }

/-- 41_modular_multiplier.md R56: the limb folding with its two corrections and the final subtraction answers
(x * y) mod P, canonical, on canonical operands, and changes nothing else. -/
def Obligations.MulReduce159IsProductModP : Prop :=
  ∀ (x y : Word) (s : State), x.toNat < fieldModulus → y.toNat < fieldModulus →
    selectField (encode (.mulReduce159 x y)) = 4#3 ∧ Op.mnemonic (Instr.op (.mulReduce159 x y)) = "mul_reduce159" ∧
    ∃ z : Word, z.toNat = (x.toNat * y.toNat) % fieldModulus ∧ z.toNat < fieldModulus ∧
      exec (.mulReduce159 x y) s =
        .next { s with history := s.history ++ [{ command := .mulReduce159 x y, response := z }] }

/-- 41_modular_multiplier.md R57 and R61: the REDC step answers (x * y * 2^-64) mod P, canonical without a final
subtraction, on canonical operands, and changes nothing else. -/
def Obligations.MontgomeryProductIsReduced : Prop :=
  radixInverse * 2 ^ 64 % fieldModulus = 1 ∧
  ∀ (x y : Word) (s : State), x.toNat < fieldModulus → y.toNat < fieldModulus →
    selectField (encode (.mulReduceMontgomery x y)) = 5#3 ∧
    Op.mnemonic (Instr.op (.mulReduceMontgomery x y)) = "mul_reduce_montgomery" ∧
    ∃ z : Word, z.toNat = (x.toNat * y.toNat * radixInverse) % fieldModulus ∧ z.toNat < fieldModulus ∧
      exec (.mulReduceMontgomery x y) s =
        .next { s with history := s.history ++ [{ command := .mulReduceMontgomery x y, response := z }] }

/-- 41_modular_multiplier.md R61, steps (1) and (2) of its proof: for every low half `xl`, the word `a` of R57 satisfies
a * P = xl modulo 2^64, and `b`, which does not wrap, is the quotient of a * P by 2^64. -/
def Obligations.RedcQuotientIsExact : Prop :=
  ∀ xl : Word,
    let a := ovfAdd64 xl (shl64 xl 32)
    let b := wrapSub64 (wrapSub64 a.1 (shr64 a.1 32)) (zext64 a.2)
    a.1.toNat * fieldModulus % 2 ^ 64 = xl.toNat ∧
    (shr64 a.1 32).toNat + a.2.toNat ≤ a.1.toNat ∧
    b.toNat = a.1.toNat * fieldModulus / 2 ^ 64

/-- 40_modular_adder.md R48, 41_modular_multiplier.md R56 and R57: no correction wraps a second time, on canonical
operands: each EPSILON is subtracted from at least EPSILON, and the one that is added leaves a sum below P. -/
def Obligations.CorrectionsNeverWrapAgain : Prop :=
  ∀ x y : Word, x.toNat < fieldModulus → y.toNat < fieldModulus →
    ((ovfSub64 x (wrapSub64 modulus y)).2 = 1 → epsilon.toNat ≤ (ovfSub64 x (wrapSub64 modulus y)).1.toNat) ∧
    (let t := umul128 x y
     let c := zext64 (lowLimb (highWord t))
     let u := ovfSub64 (lowWord t) (zext64 (highLimb (highWord t)))
     let t0 := if u.2 = 1 then wrapSub64 u.1 epsilon else u.1
     let o := ovfAdd64 t0 (wrapSub64 (shl64 c 32) c)
     (u.2 = 1 → epsilon.toNat ≤ u.1.toNat) ∧ (o.2 = 1 → o.1.toNat + epsilon.toNat < fieldModulus)) ∧
    (let t := umul128 x y
     let a := ovfAdd64 (lowWord t) (shl64 (lowWord t) 32)
     let r := ovfSub64 (highWord t) (wrapSub64 (wrapSub64 a.1 (shr64 a.1 32)) (zext64 a.2))
     r.2 = 1 → epsilon.toNat ≤ r.1.toNat)

/-- 41_modular_multiplier.md R58, whole: MUL and MUL_REDUCE159 give the same word on canonical operands. -/
def Obligations.MultiplicationVariantsAgree : Prop :=
  ∀ x y : Word, x.toNat < fieldModulus → y.toNat < fieldModulus →
    ∃ z : Word, Answers (.mul x y) z ∧ Answers (.mulReduce159 x y) z

/-- 41_modular_multiplier.md R59, whole: the Montgomery product is the reference reduction of the plain product, as a
word, and the comparator says so. -/
def Obligations.MontgomeryConsistency : Prop :=
  ∀ x y : Word, x.toNat < fieldModulus → y.toNat < fieldModulus →
    ∃ m z r : Word, Answers (.mul x y) m ∧ Answers (.mulReduceMontgomery x y) z ∧
      r.toNat = m.toNat * 0xFFFFFFFE00000001 % fieldModulus ∧ z = r ∧ Answers (.montgomeryEquals z r) 1

/-- 41_modular_multiplier.md R60, whole: the laws of the plain multiplications (commutative, associative, identity 1, 0
annihilates, distributive over each addition) and those of the Montgomery one (the same with identity EPSILON). -/
def Obligations.MultiplicationLaws : Prop :=
  ∀ x y w : Word, x.toNat < fieldModulus → y.toNat < fieldModulus → w.toNat < fieldModulus →
    (∀ M ∈ multiplications ++ [Instr.mulReduceMontgomery],
      (∃ z, Answers (M x y) z ∧ Answers (M y x) z) ∧
      (∃ u v z, Answers (M x y) u ∧ u.toNat < fieldModulus ∧ Answers (M y w) v ∧ v.toNat < fieldModulus ∧
        Answers (M u w) z ∧ Answers (M x v) z) ∧
      Answers (M 0 y) 0 ∧ Answers (M x 0) 0 ∧
      (∀ A ∈ additions, ∃ u p q z, Answers (A y w) u ∧ Answers (M x u) z ∧
        Answers (M x y) p ∧ Answers (M x w) q ∧ Answers (A p q) z)) ∧
    (∀ M ∈ multiplications, Answers (M x 1) x ∧ Answers (M 1 x) x) ∧
    Answers (.mulReduceMontgomery x epsilon) x

/-- 41_modular_multiplier.md R62, whole: into Montgomery form by R2, out of it by 1, products inside it, the form of 1,
and R2 is 2^-64 modulo P. -/
def Obligations.MontgomeryFormIdentities : Prop :=
  2 ^ 64 % fieldModulus = 0x00000000FFFFFFFF ∧ 2 ^ 128 % fieldModulus = 0xFFFFFFFE00000001 ∧
  0xFFFFFFFE00000001 * 2 ^ 64 % fieldModulus = 1 ∧
  Answers (.mulReduceMontgomery 0x00000000FFFFFFFF#64 0x00000000FFFFFFFF#64) 0x00000000FFFFFFFF#64 ∧
  ∀ v w v' w' vw' : Word, v.toNat < fieldModulus → w.toNat < fieldModulus →
    v'.toNat = v.toNat * 2 ^ 64 % fieldModulus → w'.toNat = w.toNat * 2 ^ 64 % fieldModulus →
    vw'.toNat = v.toNat * w.toNat * 2 ^ 64 % fieldModulus →
    Answers (.mulReduceMontgomery v 0xFFFFFFFE00000001#64) v' ∧
    Answers (.mulReduceMontgomery v' 1) v ∧
    Answers (.mulReduceMontgomery v' w') vw'

/-- 70_reset_and_hazards.md R84: on canonical operands the Montgomery product and the plain product are the same word
only when the plain product is 0. -/
def Obligations.MontgomeryIsNotInterchangeable : Prop :=
  ∀ x y : Word, x.toNat < fieldModulus → y.toNat < fieldModulus →
    ∃ m z : Word, Answers (.mul x y) m ∧ Answers (.mulReduceMontgomery x y) z ∧ (z = m ↔ m = 0)

/-! ### The field equality comparator -/

/-- 42_field_equality.md R65: MONTGOMERY_EQUALS takes any two words, answers 1 exactly when they are the same word and 0
otherwise, and changes nothing else. -/
def Obligations.EqualsIsWordEquality : Prop :=
  ∀ (lhs rhs : Word) (s : State),
    selectField (encode (.montgomeryEquals lhs rhs)) = 6#3 ∧
    Op.mnemonic (Instr.op (.montgomeryEquals lhs rhs)) = "montgomery_equals" ∧
    exec (.montgomeryEquals lhs rhs) s =
      .next { s with
        history := s.history ++
          [{ command := .montgomeryEquals lhs rhs, response := if lhs.toNat = rhs.toNat then 1 else 0 }] }

/-- 42_field_equality.md R66: two different words of the same field element are reported unequal; such pairs are one for
each non-canonical word, 2^32 - 1 in all. -/
def Obligations.EqualsDoesNotTolerateP : Prop :=
  (∀ x y : Word, x ≠ y → trueValue x = trueValue y → Answers (.montgomeryEquals x y) 0) ∧
  (∀ x v : Word, x.toNat < v.toNat → trueValue x = trueValue v → fieldModulus ≤ v.toNat) ∧
  (∀ v : Word, fieldModulus ≤ v.toNat → ∃! x : Word, x.toNat < v.toNat ∧ trueValue x = trueValue v) ∧
  2 ^ 64 - fieldModulus = 2 ^ 32 - 1

/-- 42_field_equality.md R67, whole: on canonical operands the comparator decides field equality, and every result of an
arithmetic operation on canonical operands is canonical. -/
def Obligations.EqualsDecidesFieldEquality : Prop :=
  (∀ x y : Word, x.toNat < fieldModulus → y.toNat < fieldModulus →
    (Answers (.montgomeryEquals x y) 1 ↔ trueValue x = trueValue y)) ∧
  (∀ A ∈ additions ++ multiplications ++ [Instr.mulReduceMontgomery], ∀ x y : Word,
    x.toNat < fieldModulus → y.toNat < fieldModulus → ∃ z, Answers (A x y) z ∧ z.toNat < fieldModulus)

/-- 42_field_equality.md R65, its informative formula (93_implementation_defined.md G1): the sign-bit test of a word is 1
exactly on zero. -/
def Obligations.SignBitTestFindsZero : Prop :=
  ∀ t : Word, signBitZeroTest t = if t = 0 then 1 else 0

/-- 70_reset_and_hazards.md R83: a host that canonicalises two words before comparing them learns whether they denote the
same field element. -/
def Obligations.CanonicaliseThenCompare : Prop :=
  ∀ v w : Word,
    (canonicalise v).toNat < fieldModulus ∧ trueValue (canonicalise v) = trueValue v ∧
    Answers (.montgomeryEquals (canonicalise v) (canonicalise w)) (if trueValue v = trueValue w then 1 else 0)

/-! ### Results of all operations -/

/-- 10_state.md R13, whole: the result invariant on canonical operands. -/
def Obligations.ResultsDenoteFieldValues : Prop :=
  radixInverse = 18446744065119617025 ∧ radixInverse * 2 ^ 64 % fieldModulus = 1 ∧
  ∀ x y : Word, x.toNat < fieldModulus → y.toNat < fieldModulus →
    (∀ A ∈ additions, ∃ z, Answers (A x y) z ∧ trueValue z = (trueValue x + trueValue y) % fieldModulus) ∧
    (∀ M ∈ multiplications, ∃ z, Answers (M x y) z ∧ trueValue z = (trueValue x * trueValue y) % fieldModulus) ∧
    (∃ z, Answers (.mulReduceMontgomery x y) z ∧
      trueValue z = (trueValue x * trueValue y * radixInverse) % fieldModulus)

/-- 10_state.md R24, the column of what the rules of the spec give: the regime of each result on operands in the domain. -/
def Obligations.ResultRegimes : Prop :=
  ∀ i : Instr, inDomain i = true → ∃ z : Word, Answers i z ∧
    (if i.op = .montgomeryEquals then z = 0 ∨ z = 1 else z.toNat < fieldModulus)

/-! ### Invariants, order, reset, host -/

/-- 60_exceptions.md R71, 10_state.md R13 and R24, 70_reset_and_hazards.md R87: a step from any state in which every
observed transaction keeps the contract gives such a state. The invariant's other part, that the count of draws is the
number of observed transactions outside their domain, is no rule of the spec: the count is the model's choice (log entry
2, DESIGN CHOICE). -/
def Obligations.StepKeepsContract : Prop :=
  ∀ s t : State, s.inv = true → step s = .next t → t.inv = true

/-- The invariant holds at reset (10_state.md R22: nothing to observe; the empty lists and the zero are the model's
choice, log entries 1 and 2). -/
def Obligations.ResetMeetsContract : Prop :=
  State.reset.inv = true ∧ State.reset.history = [] ∧ State.reset.pending = [] ∧ commandOrder State.reset = []

/-- 20_memory.md R28, R30: a step neither loses nor reorders nor repeats a command: the words answered so far followed by
the words still to be answered stay the same list, and a step at a presented command answers exactly one. -/
def Obligations.ResponsesInCommandOrder : Prop :=
  ∀ s t : State, step s = .next t →
    commandOrder t = commandOrder s ∧ (s.pending ≠ [] → t.history.length = s.history.length + 1)

/-- 70_reset_and_hazards.md R82: two commands one right after the other are each answered as if alone. -/
def Obligations.BackToBackCommandsHaveNoHazard : Prop :=
  ∀ (i j : Instr) (s : State) (rest : List CommandWord), inDomain i = true → inDomain j = true →
    s.pending = encode i :: encode j :: rest →
    ∃ (zi zj : Word) (t : State), Answers i zi ∧ Answers j zj ∧ step s = .next t ∧
      step t = .next
        { pending := rest
          history := s.history ++ [{ command := i, response := zi }, { command := j, response := zj }]
          draws := s.draws }

/-- 70_reset_and_hazards.md R80: after reset is asserted the commands in flight get no response, and the first command
presented is answered exactly as any other. That what was observed stays observed, and that the count of
draws stays, are the model's choice (log entry 5, DESIGN CHOICE). -/
def Obligations.ResetIsNotObservable : Prop :=
  ∀ (i : Instr) (s : State), inDomain i = true →
    s.assertReset.pending = [] ∧
    ∃ z : Word, Answers i z ∧
      step (s.assertReset.present (encode i)) =
        .next { pending := [], history := s.history ++ [{ command := i, response := z }], draws := s.draws }

/-- 30_encoding.md R41: a well-formed line stands for one command with its own operation, literals standing for
themselves and names for the responses bound to them, and running it at a unit with nothing else to answer binds its
name, if it has one, to the response. Where R41 is silent the statement rests on the model's choice (log entry 7, DESIGN
CHOICE): which constant expressions there are beside R41's own `P-1` (sums and differences, read from the left), that of
an expression only the final value must lie in [0, 2^64), that a later binding stands in front of an earlier one of the
same name and hides it, and that a session presents one line at a time and waits for its response. -/
def Obligations.AssemblerLineIsOneCommand : Prop :=
  ∀ (h : Session) (l : AsmLine), l.wellFormed (h.names.map Prod.fst) = true → h.unit.pending = [] →
    ∃ (x y z : Word) (t : State),
      resolveLine h.names l = .ok (l.op.command x y) ∧
      (∀ e, l.x = .const e → (x.toNat : Int) = e.value) ∧ (∀ e, l.y = .const e → (y.toNat : Int) = e.value) ∧
      (∀ n, l.x = .named n → h.names.lookup n = some x) ∧ (∀ n, l.y = .named n → h.names.lookup n = some y) ∧
      t.pending = [] ∧ t.history = h.unit.history ++ [{ command := l.op.command x y, response := z }] ∧
      runLine h l = .ok
        { unit := t, names := match l.bind with | some n => (n, z) :: h.names | none => h.names }
end

