-- ==== Sys2Proof/Laws/Arith.lean ====
section
/-! SUPPORT. The primitives of 00_scope.md R6 and the slices of R5 in integers, one lemma each. -/

namespace Sys2Proof.Machine

@[simp] theorem modulus_toNat : modulus.toNat = 18446744069414584321 := by decide
@[simp] theorem modulusWide_toNat : modulusWide.toNat = 18446744069414584321 := by decide
@[simp] theorem epsilon_toNat : epsilon.toNat = 4294967295 := by decide

theorem zext64_toNat {n : Nat} (v : BitVec n) (h : n ≤ 64) : (zext64 v).toNat = v.toNat := by
  simp only [zext64, BitVec.toNat_setWidth]
  exact Nat.mod_eq_of_lt (Nat.lt_of_lt_of_le v.isLt (Nat.pow_le_pow_right (by decide) h))

theorem zext128_toNat {n : Nat} (v : BitVec n) (h : n ≤ 128) : (zext128 v).toNat = v.toNat := by
  simp only [zext128, BitVec.toNat_setWidth]
  exact Nat.mod_eq_of_lt (Nat.lt_of_lt_of_le v.isLt (Nat.pow_le_pow_right (by decide) h))

theorem wrapAdd64_toNat (a b : Word) : (wrapAdd64 a b).toNat = (a.toNat + b.toNat) % 2 ^ 64 :=
  BitVec.toNat_add a b

theorem wrapSub64_toNat (a b : Word) :
    (wrapSub64 a b).toNat = (a.toNat + 2 ^ 64 - b.toNat) % 2 ^ 64 := by
  have hb := b.isLt
  simp only [wrapSub64, BitVec.toNat_sub]
  omega

theorem shl64_toNat (a : Word) (k : Nat) : (shl64 a k).toNat = a.toNat * 2 ^ k % 2 ^ 64 := by
  simp [shl64, BitVec.toNat_shiftLeft, Nat.shiftLeft_eq]

theorem shr64_toNat (a : Word) (k : Nat) : (shr64 a k).toNat = a.toNat / 2 ^ k := by
  simp [shr64, BitVec.toNat_ushiftRight, Nat.shiftRight_eq_div_pow]

theorem umul128_toNat (a b : Word) : (umul128 a b).toNat = a.toNat * b.toNat := by
  have h : a.toNat * b.toNat < 2 ^ 128 := by
    calc a.toNat * b.toNat < 2 ^ 64 * 2 ^ 64 := Nat.mul_lt_mul'' a.isLt b.isLt
      _ = 2 ^ 128 := by decide
  simp only [umul128, BitVec.toNat_mul, zext128_toNat a (by decide), zext128_toNat b (by decide)]
  exact Nat.mod_eq_of_lt h

theorem ovfAdd64_fst_toNat (a b : Word) : (ovfAdd64 a b).1.toNat = (a.toNat + b.toNat) % 2 ^ 64 :=
  BitVec.toNat_add a b

theorem ovfAdd64_snd (a b : Word) : (ovfAdd64 a b).2 = if 2 ^ 64 ≤ a.toNat + b.toNat then 1 else 0 := rfl

theorem ovfSub64_fst_toNat (a b : Word) :
    (ovfSub64 a b).1.toNat = (a.toNat + 2 ^ 64 - b.toNat) % 2 ^ 64 :=
  wrapSub64_toNat a b

theorem ovfSub64_snd (a b : Word) : (ovfSub64 a b).2 = if a.toNat < b.toNat then 1 else 0 := rfl

@[simp] theorem mask32_one : mask32 1 = 0xFFFFFFFF#32 := by decide
@[simp] theorem mask32_zero : mask32 0 = 0#32 := by decide

theorem lowWord_toNat (t : Wide) : (lowWord t).toNat = t.toNat % 2 ^ 64 := by
  simp [lowWord, BitVec.extractLsb'_toNat]

theorem highWord_toNat (t : Wide) : (highWord t).toNat = t.toNat / 2 ^ 64 := by
  have h := t.isLt
  simp only [highWord, BitVec.extractLsb'_toNat, Nat.shiftRight_eq_div_pow]
  exact Nat.mod_eq_of_lt (by omega)

theorem lowLimb_toNat (v : Word) : (lowLimb v).toNat = v.toNat % 2 ^ 32 := by
  simp [lowLimb, BitVec.extractLsb'_toNat]

theorem highLimb_toNat (v : Word) : (highLimb v).toNat = v.toNat / 2 ^ 32 := by
  have h := v.isLt
  simp only [highLimb, BitVec.extractLsb'_toNat, Nat.shiftRight_eq_div_pow]
  exact Nat.mod_eq_of_lt (by omega)

end Sys2Proof.Machine
end

