-- ==== Sys2Proof/Laws/Decode.lean ====
section
/-! SUPPORT. The layout `op ‖ x ‖ y` (30_encoding.md R35), and the select map in both directions. -/

namespace Sys2Proof

/-- The concatenation as a number. -/
theorem layout_toNat (c : SelectCode) (x y : Word) :
    BitVec.toNat (w := 131) (c ++ (x ++ y)) = c.toNat * 2 ^ 128 + x.toNat * 2 ^ 64 + y.toNat := by
  have hxy : (x ++ y).toNat = x.toNat * 2 ^ 64 + y.toNat := by
    rw [BitVec.toNat_append, ← Nat.shiftLeft_add_eq_or_of_lt y.isLt, Nat.shiftLeft_eq]
  have h : (c ++ (x ++ y)).toNat = c.toNat * 2 ^ 128 + (x ++ y).toNat := by
    rw [BitVec.toNat_append, ← Nat.shiftLeft_add_eq_or_of_lt (x ++ y).isLt, Nat.shiftLeft_eq]
  rw [show BitVec.toNat (w := 131) (c ++ (x ++ y)) = (c ++ (x ++ y)).toNat from rfl, h, hxy]
  omega

/-- The three fields of the concatenation. -/
theorem fields_of_layout (c : SelectCode) (x y : Word) :
    selectField (c ++ (x ++ y)) = c ∧ xField (c ++ (x ++ y)) = x ∧ yField (c ++ (x ++ y)) = y := by
  have h := layout_toNat c x y
  have hc := c.isLt
  have hx := x.isLt
  have hy := y.isLt
  refine ⟨?_, ?_, ?_⟩ <;> apply BitVec.eq_of_toNat_eq
  · rw [selectField, BitVec.extractLsb'_toNat, h, Nat.shiftRight_eq_div_pow]
    omega
  · rw [xField, BitVec.extractLsb'_toNat, h, Nat.shiftRight_eq_div_pow]
    omega
  · rw [yField, BitVec.extractLsb'_toNat, h, Nat.shiftRight_eq_div_pow]
    omega

/-- The map of R37 read from the operation and back. -/
theorem ofCode_code (op : Op) : Op.ofCode op.code = some op := by
  cases op <;> rfl

/-- An instruction is its operation with its operands. -/
theorem command_op (i : Instr) : i.op.command i.x i.y = i := by
  cases i <;> rfl

/-- The operation of a command is the one it was made from. -/
@[simp] theorem op_command (op : Op) (x y : Word) : (op.command x y).op = op := by
  cases op <;> rfl

@[simp] theorem x_command (op : Op) (x y : Word) : (op.command x y).x = x := by
  cases op <;> rfl

@[simp] theorem y_command (op : Op) (x y : Word) : (op.command x y).y = y := by
  cases op <;> rfl

end Sys2Proof
end

