-- ==== Sys2Proof/Laws/State.lean ====
section
/-! SUPPORT. One lemma for each field of the state under each update. -/

namespace Sys2Proof.Machine

@[simp] theorem State.reset_pending : State.reset.pending = [] := rfl
@[simp] theorem State.reset_history : State.reset.history = [] := rfl
@[simp] theorem State.reset_draws : State.reset.draws = 0 := rfl

@[simp] theorem State.respond_pending (s : State) (i : Instr) (z : Word) : (s.respond i z).pending = s.pending := rfl
@[simp] theorem State.respond_history (s : State) (i : Instr) (z : Word) :
    (s.respond i z).history = s.history ++ [{ command := i, response := z }] := rfl
@[simp] theorem State.respond_draws (s : State) (i : Instr) (z : Word) : (s.respond i z).draws = s.draws := rfl

@[simp] theorem State.respondDraw_pending (s : State) (i : Instr) : (s.respondDraw i).pending = s.pending := rfl
@[simp] theorem State.respondDraw_history (s : State) (i : Instr) :
    (s.respondDraw i).history = s.history ++ [{ command := i, response := Config.draw s.draws i }] := rfl
@[simp] theorem State.respondDraw_draws (s : State) (i : Instr) : (s.respondDraw i).draws = s.draws + 1 := rfl

@[simp] theorem State.accept_pending (s : State) : s.accept.pending = s.pending.tail := rfl
@[simp] theorem State.accept_history (s : State) : s.accept.history = s.history := rfl
@[simp] theorem State.accept_draws (s : State) : s.accept.draws = s.draws := rfl

@[simp] theorem State.present_pending (s : State) (cmd : CommandWord) :
    (s.present cmd).pending = s.pending ++ [cmd] := rfl
@[simp] theorem State.present_history (s : State) (cmd : CommandWord) : (s.present cmd).history = s.history := rfl
@[simp] theorem State.present_draws (s : State) (cmd : CommandWord) : (s.present cmd).draws = s.draws := rfl

@[simp] theorem State.presentNext_pending (s : State) (cmd : CommandWord) :
    (s.presentNext cmd).pending = cmd :: s.pending := rfl
@[simp] theorem State.presentNext_history (s : State) (cmd : CommandWord) :
    (s.presentNext cmd).history = s.history := rfl
@[simp] theorem State.presentNext_draws (s : State) (cmd : CommandWord) : (s.presentNext cmd).draws = s.draws := rfl

@[simp] theorem State.assertReset_pending (s : State) : s.assertReset.pending = [] := rfl
@[simp] theorem State.assertReset_history (s : State) : s.assertReset.history = s.history := rfl
@[simp] theorem State.assertReset_draws (s : State) : s.assertReset.draws = s.draws := rfl

@[simp] theorem State.withFetchWord_pending (s : State) (nbits w : Nat) :
    (s.withFetchWord nbits w).pending = tableCommand nbits w :: s.pending := rfl
@[simp] theorem State.withFetchWord_history (s : State) (nbits w : Nat) :
    (s.withFetchWord nbits w).history = s.history := rfl
@[simp] theorem State.withFetchWord_draws (s : State) (nbits w : Nat) :
    (s.withFetchWord nbits w).draws = s.draws := rfl

end Sys2Proof.Machine
end

