-- ==== Sys2Proof/Laws/Ops.lean ====
section
/-! SUPPORT. What each shared operation can do, said once. -/

namespace Sys2Proof.Machine

/-- The canonical check in integers. -/
theorem isCanonical_iff (v : Word) : isCanonical v = true ↔ v.toNat < 18446744069414584321 := by
  simp [isCanonical, modulus, BitVec.lt_def]

/-- On canonical operands an arithmetic operation answers its datapath's word. -/
theorem answerArithmetic_canonical (f : Word → Word → Word) (i : Instr) {x y : Word} (s : State)
    (hx : isCanonical x = true) (hy : isCanonical y = true) :
    answerArithmetic f i x y s = .next (s.respond i (f x y)) := by
  simp [answerArithmetic, hx, hy]

/-- With an operand outside the domain it answers a draw. -/
theorem answerArithmetic_draw (f : Word → Word → Word) (i : Instr) {x y : Word} (s : State)
    (h : (isCanonical x && isCanonical y) = false) :
    answerArithmetic f i x y s = .next (s.respondDraw i) := by
  simp only [answerArithmetic, h, Bool.false_eq_true, if_false]

/-- Everything an arithmetic operation can do. -/
theorem answerArithmetic_cases {f : Word → Word → Word} {i : Instr} {x y : Word} {s t : State}
    (h : answerArithmetic f i x y s = .next t) :
    ((isCanonical x && isCanonical y) = true ∧ t = s.respond i (f x y)) ∨
    ((isCanonical x && isCanonical y) = false ∧ t = s.respondDraw i) := by
  cases hc : isCanonical x && isCanonical y with
  | true =>
    simp only [Bool.and_eq_true] at hc
    rw [answerArithmetic_canonical f i s hc.1 hc.2] at h
    exact .inl ⟨rfl, by cases h; rfl⟩
  | false =>
    rw [answerArithmetic_draw f i s hc] at h
    exact .inr ⟨rfl, by cases h; rfl⟩

/-- Everything the comparator's shared operation can do. -/
theorem answerAny_eq (f : Word → Word → Word) (i : Instr) (x y : Word) (s : State) :
    answerAny f i x y s = .next (s.respond i (f x y)) := rfl

/-- With no command presented nothing is fetched. -/
theorem State.fetch_nil {s : State} (h : s.pending = []) : s.fetch = none := by
  simp [State.fetch, h]

/-- The oldest command is the one that is fetched. -/
theorem State.fetch_cons {s : State} {cmd : CommandWord} {rest : List CommandWord} (h : s.pending = cmd :: rest) :
    s.fetch = some (decode cmd) := by
  simp [State.fetch, h]

/-- Taking a command leaves the rest. -/
theorem State.accept_cons {s : State} {cmd : CommandWord} {rest : List CommandWord} (h : s.pending = cmd :: rest) :
    s.accept = { s with pending := rest } := by
  simp [State.accept, h]

end Sys2Proof.Machine
end

