-- ==== Sys2Proof/Laws/PerInstr.lean ====
section
/-! SUPPORT. The family EncodedFields: each field of an encoded instruction stands where 30_encoding.md R35 puts it. -/

namespace Sys2Proof.Laws.EncodedFields

/-- `CMD[130:128]`, `CMD[127:64]` and `CMD[63:0]` of the encoded instruction are its code and its operands. -/
def Statement (i : Instr) : Prop :=
  selectField (encode i) = i.op.code ∧ xField (encode i) = i.x ∧ yField (encode i) = i.y

theorem add (x y : Word) : Statement (.add x y) := fields_of_layout _ x y
theorem addFast (x y : Word) : Statement (.addFast x y) := fields_of_layout _ x y
theorem addWinterfell (x y : Word) : Statement (.addWinterfell x y) := fields_of_layout _ x y
theorem mul (x y : Word) : Statement (.mul x y) := fields_of_layout _ x y
theorem mulReduce159 (x y : Word) : Statement (.mulReduce159 x y) := fields_of_layout _ x y
theorem mulReduceMontgomery (x y : Word) : Statement (.mulReduceMontgomery x y) := fields_of_layout _ x y
theorem montgomeryEquals (lhs rhs : Word) : Statement (.montgomeryEquals lhs rhs) := fields_of_layout _ lhs rhs

end Sys2Proof.Laws.EncodedFields
end

