-- ==== Sys2Proof/Tests/Slice0.lean ====
section
/-! SUPPORT. The model's own tests. Every expected value is one that spec/95_test_vectors.md or a rule's corner cases
print. The last section has, for each statement with hypotheses, a state and operands that meet them. -/

namespace Sys2Proof.Tests

open Sys2Proof.Machine

/-- The response to a command word presented right after reset. -/
def answerOf (w : Nat) : Option Word :=
  match step (State.reset.withFetchWord 136 w) with
  | .next s => s.history.getLast?.map (·.response)
  | .fault _ => none
  | .refused _ => none

/-- The command word `op * 2^128 + x * 2^64 + y` of 30_encoding.md R35. -/
def wordOf (op x y : Nat) : Nat := op * 2 ^ 128 + x * 2 ^ 64 + y

/-! ### Well-formedness (30_encoding.md R38, R41) -/

theorem test_reserved_word_is_ill_formed : wellFormedCommand 0x700000000000000050000000000000007#131 = false := by decide

theorem test_plain_word_is_well_formed : wellFormedCommand 0x600000000000000050000000000000007#131 = true := by decide

theorem test_constant_too_wide_is_ill_formed :
    AsmOperand.wellFormed [] (.const (.literal 0x10000000000000000)) = false := by decide

theorem test_negative_constant_is_ill_formed :
    AsmOperand.wellFormed [] (.const (.minus (.literal 0) .symbolP)) = false := by decide

theorem test_unbound_name_is_ill_formed : AsmOperand.wellFormed ["b"] (.named "a") = false := by decide

theorem test_line_with_ill_formed_operand :
    AsmLine.wellFormed [] { bind := none, op := .add, x := .const (.literal 1), y := .named "a" } = false := by decide

theorem test_name_must_be_bound_earlier :
    wellFormedLines []
      [{ bind := none, op := .mul, x := .named "a", y := .const (.literal 2) },
       { bind := some "a", op := .add, x := .const (.literal 1), y := .const (.literal 2) }] = false := by decide

/-! ### Decoding: vectors V-D1 to V-D9 of 95_test_vectors.md section 2.8 -/

theorem test_decode_add : decode 0x000000000000000050000000000000007#131 = .ok (.add 5 7) := by decide

theorem test_decode_add_fast : decode 0x100000000000000050000000000000007#131 = .ok (.addFast 5 7) := by decide

theorem test_decode_add_winterfell :
    decode 0x200000000000000050000000000000007#131 = .ok (.addWinterfell 5 7) := by decide

theorem test_decode_mul : decode 0x300000000000000050000000000000007#131 = .ok (.mul 5 7) := by decide

theorem test_decode_mul_reduce159 :
    decode 0x400000000000000050000000000000007#131 = .ok (.mulReduce159 5 7) := by decide

theorem test_decode_mul_reduce_montgomery :
    decode 0x500000000000000050000000000000007#131 = .ok (.mulReduceMontgomery 5 7) := by decide

theorem test_decode_montgomery_equals :
    decode 0x600000000000000050000000000000007#131 = .ok (.montgomeryEquals 5 7) := by decide

theorem test_decode_reserved :
    decode 0x700000000000000050000000000000007#131 = .error .reservedSelectCode ∧
    decode 0x700000000000000000000000000000000#131 = .error .reservedSelectCode := by decide

theorem test_step_refuses_reserved :
    step (State.reset.withFetchWord 136 0x700000000000000050000000000000007) = .refused .reservedSelectCode := by rfl

/-- The first line of program P1. -/
theorem test_encode_line_of_P1 :
    encode (.add 0xFFFFFFFF00000000 2) = 0x0FFFFFFFF000000000000000000000002#131 := by decide

theorem test_table_word_reads_as_its_row :
    decodeTableWord 136 0x500000000000000000000000000000000 = some (.mulReduceMontgomery 0 0) := by decide

/-! ### One step of each operation -/

/-- V-A2: the sum is exactly P. -/
theorem test_add_wraps_to_zero : answerOf (wordOf 0 0xFFFFFFFF00000000 1) = some 0x0000000000000000 := by decide

/-- V-A5: the largest sum. -/
theorem test_add_largest : answerOf (wordOf 0 0xFFFFFFFF00000000 0xFFFFFFFF00000000) = some 0xFFFFFFFEFFFFFFFF := by decide

/-- V-F2: the threshold is "at least P". -/
theorem test_add_fast_boundary : answerOf (wordOf 1 0xFFFFFFFF00000000 1) = some 0x0000000000000000 := by decide

/-- V-F6: the largest sum that is not subtracted. -/
theorem test_add_fast_unreduced : answerOf (wordOf 1 0 0xFFFFFFFF00000000) = some 0xFFFFFFFF00000000 := by decide

/-- V-W7: a borrow, so EPSILON is subtracted. -/
theorem test_add_winterfell_borrow : answerOf (wordOf 2 5 7) = some 0x000000000000000C := by decide

/-- V-W5: no borrow. -/
theorem test_add_winterfell_no_borrow :
    answerOf (wordOf 2 0xFFFFFFFF00000000 0xFFFFFFFF00000000) = some 0xFFFFFFFEFFFFFFFF := by decide

/-- V-U4. -/
theorem test_mul_square_of_minus_one :
    answerOf (wordOf 3 0xFFFFFFFF00000000 0xFFFFFFFF00000000) = some 0x0000000000000001 := by decide

/-- V-U10. -/
theorem test_mul_wide_product : answerOf (wordOf 3 0x8000000000000000 0x8000000000000000) = some 0xFFFFFFFEC0000001 := by decide

/-- V-R16: underflow and overflow together. -/
theorem test_mul_reduce159_both_corrections :
    answerOf (wordOf 4 0x8000000000000000 0xFFFFFFFF00000000) = some 0x7FFFFFFF00000001 := by decide

/-- V-R4: underflow and the final subtraction. -/
theorem test_mul_reduce159_final_subtraction :
    answerOf (wordOf 4 0xFFFFFFFF00000000 0xFFFFFFFF00000000) = some 0x0000000000000001 := by decide

/-- V-M5: a carry out of `a`. -/
theorem test_montgomery_carry : answerOf (wordOf 5 2 0x7FFFFFFF80000001) = some 0xFFFFFFFE00000001 := by decide

/-- V-M12: no borrow. -/
theorem test_montgomery_no_borrow :
    answerOf (wordOf 5 0xFFFFFFFE00000002 0xFFFFFFFE00000002) = some 0x00000000FFFFFFFF := by decide

/-- V-E8: a difference in bit 63 alone. -/
theorem test_equals_top_bit : answerOf (wordOf 6 0x8000000000000000 0) = some 0x0000000000000000 := by decide

/-- V-E5: a word that is not canonical equals itself. -/
theorem test_equals_non_canonical : answerOf (wordOf 6 0xFFFFFFFF00000001 0xFFFFFFFF00000001) = some 0x0000000000000001 := by
  decide

/-- V-X1: x = P gives a draw and no signal; only the other fields are fixed. -/
theorem test_add_out_of_domain_draws :
    step (State.reset.withFetchWord 136 0x0FFFFFFFF000000010000000000000000) =
      .next { pending := []
              history := [{ command := .add 0xFFFFFFFF00000001 0
                            response := Config.draw 0 (.add 0xFFFFFFFF00000001 0) }]
              draws := 1 } := by rfl

/-- V-X3: the comparator has no out-of-domain operand. -/
theorem test_equals_never_draws : answerOf 0x6FFFFFFFF00000001FFFFFFFFFFFFFFFF = some 0x0000000000000000 := by decide

theorem test_step_without_command : step State.reset = .next State.reset := by rfl

/-! ### Assembler text (30_encoding.md R41), lines of programs P1 and P5 and of section 2.9 -/

theorem test_parse_line_of_P1 :
    parseLine "%b = mul 0x0000000000000002, 0x7FFFFFFF80000001" =
      .ok (some { bind := some "b", op := .mul, x := .const (.literal 2), y := .const (.literal 0x7FFFFFFF80000001) }) := by
  decide

theorem test_parse_expression_and_names :
    parseLine "montgomery_equals P-1, %o ; a comment" =
      .ok (some { bind := none, op := .montgomeryEquals, x := .const (.minus .symbolP (.literal 1)), y := .named "o" }) := by
  decide

theorem test_parse_upper_case_is_no_mnemonic : parseLine "MUL 1, 2" = .error .unknownMnemonic := by decide

theorem test_resolve_expression :
    resolveLine [("o", 1)]
      { bind := none, op := .add, x := .const (.minus .symbolP (.literal 1)), y := .named "o" } =
      .ok (.add 0xFFFFFFFF00000000 1) := by rfl

/-! ### Hypotheses that are met -/

theorem witness_EncodeInvertsDecode : decode 0x600000000000000050000000000000007#131 = .ok (.montgomeryEquals 5 7) := by decide

theorem witness_DecodeAndEncodeAgree : (0x6FFFFFFFFFFFFFFFFFFFFFFFFFFFFFFFF#131).extractLsb' 128 3 ≠ 7#3 := by decide

/-- A reserved word before a plain one: each clause's hypotheses at once. -/
theorem witness_ReservedCodeIsRefused :
    ({ State.reset with pending := [0x700000000000000050000000000000007#131, 0x600000000000000050000000000000007#131] } : State).pending =
      [0x700000000000000050000000000000007#131, 0x600000000000000050000000000000007#131] ∧
    (0x700000000000000050000000000000007#131).extractLsb' 128 3 = 7#3 ∧
    (0x600000000000000050000000000000007#131).extractLsb' 128 3 ≠ 7#3 := by decide

/-- The least word outside [0, P), on both operands, of the first listed operation. -/
theorem witness_EventsOfOneCommandDoNotCompete :
    (additions ++ multiplications ++ [Instr.mulReduceMontgomery]).head? = some Instr.add ∧
    fieldModulus ≤ (0xFFFFFFFF00000001#64).toNat := ⟨rfl, by decide⟩

theorem witness_StepRunsDecodedInstruction :
    (State.reset.present 0x300000000000000050000000000000007#131).pending = [0x300000000000000050000000000000007#131] ∧
    decode 0x300000000000000050000000000000007#131 = .ok (.mul 5 7) ∧ State.reset.pending = [] := by decide

theorem witness_FrameOfEveryOperation :
    exec (.addFast 5 7) State.reset =
      .next { pending := [], history := [{ command := .addFast 5 7, response := 12 }], draws := 0 } := by rfl

/-- The frame's other branch, outside the domain. -/
theorem witness_FrameOfEveryOperation_draw :
    exec (.mul 0xFFFFFFFF00000001 0) State.reset = .next (State.reset.respondDraw (.mul 0xFFFFFFFF00000001 0)) := by rfl

theorem witness_ResponseIsFunctionOfCommand :
    inDomain (.mulReduceMontgomery 0xFFFFFFFF00000000 0xFFFFFFFF00000000) = true := by decide

theorem witness_OutOfDomainResponseIsDrawn :
    inDomain (.addWinterfell 0 0xFFFFFFFF00000001) = false ∧ inDomain (.mul 0xFFFFFFFFFFFFFFFF 0) = false := by decide

theorem witness_NonCanonicalWordHasOneCanonical :
    fieldModulus ≤ (0xFFFFFFFF00000001#64).toNat ∧ fieldModulus ≤ (0xFFFFFFFFFFFFFFFF#64).toNat := by decide

/-- Canonical operands whose sum is below P, exactly P, and the largest: the clauses of AddIsSumModP,
AddFastSubtractsAtLeastP, AddWinterfellBorrowAndMask, AdditionVariantsAgree. -/
theorem witness_CanonicalOperandsOfAdditions :
    (5#64).toNat < fieldModulus ∧ (7#64).toNat < fieldModulus ∧ (5#64).toNat + (7#64).toNat < fieldModulus ∧
    (0xFFFFFFFF00000000#64).toNat < fieldModulus ∧ (1#64).toNat < fieldModulus ∧
    (0xFFFFFFFF00000000#64).toNat + (1#64).toNat = fieldModulus := by decide

/-- Canonical operands at the ends of the range: the hypotheses of MulIsProductModP, MulReduce159IsProductModP,
MontgomeryProductIsReduced, MultiplicationVariantsAgree, MontgomeryConsistency, MontgomeryIsNotInterchangeable,
EqualsDecidesFieldEquality, ResultsDenoteFieldValues. -/
theorem witness_CanonicalOperandsOfMultiplications :
    (0#64).toNat < fieldModulus ∧ (0xFFFFFFFF00000000#64).toNat < fieldModulus := by decide

/-- Three canonical operands: AdditionLaws, MultiplicationLaws. -/
theorem witness_ThreeCanonicalOperands :
    (0x7FFFFFFF80000001#64).toNat < fieldModulus ∧ (0xFFFFFFFF00000000#64).toNat < fieldModulus ∧
    (2#64).toNat < fieldModulus := by decide

/-- The premises inside CorrectionsNeverWrapAgain: a borrow of the adder (V-W7), an underflow and an overflow of the limb
folding (V-R16), a borrow of the REDC step (V-M6). -/
theorem witness_CorrectionsNeverWrapAgain :
    (ovfSub64 5 (wrapSub64 modulus 7)).2 = 1 ∧
    (ovfSub64 0 0x7FFFFFFF).2 = 1 ∧ (ovfAdd64 0xFFFFFFFE80000002 0x7FFFFFFF80000000).2 = 1 ∧
    (ovfSub64 0 0x0000000F00000000).2 = 1 := by decide

/-- 3 and 5 with their Montgomery forms and that of their product (V-M7 to V-M9). -/
theorem witness_MontgomeryFormIdentities :
    (0x00000002FFFFFFFD#64).toNat = (3#64).toNat * 2 ^ 64 % fieldModulus ∧
    (0x00000004FFFFFFFB#64).toNat = (5#64).toNat * 2 ^ 64 % fieldModulus ∧
    (0x0000000EFFFFFFF1#64).toNat = (3#64).toNat * (5#64).toNat * 2 ^ 64 % fieldModulus := by decide

/-- V-E6: 0 and P. -/
theorem witness_EqualsDoesNotTolerateP :
    (0#64) ≠ 0xFFFFFFFF00000001#64 ∧ trueValue 0 = trueValue 0xFFFFFFFF00000001 ∧
    (0#64).toNat < (0xFFFFFFFF00000001#64).toNat ∧ fieldModulus ≤ (0xFFFFFFFF00000001#64).toNat := by decide

theorem witness_ResultRegimes :
    inDomain (.montgomeryEquals 0xFFFFFFFFFFFFFFFF 0) = true ∧ inDomain (.add 0xFFFFFFFF00000000 0) = true := by decide

/-- A state that no run from reset has to reach, with a kept contract and a command to answer. -/
theorem witness_StepKeepsContract :
    ({ pending := [0x300000000000000020000000000000003#131]
       history := [{ command := .add 5 7, response := 12 }, { command := .mul 0xFFFFFFFFFFFFFFFF 0, response := 3 }]
       draws := 1 } : State).inv = true ∧
    ({ pending := [], history := [{ command := .add 5 7, response := 13 }], draws := 0 } : State).inv = false := by decide

theorem witness_ResponsesInCommandOrder :
    step (State.reset.present 0x600000000000000050000000000000007#131) =
      .next { pending := [], history := [{ command := .montgomeryEquals 5 7, response := 0 }], draws := 0 } := by rfl

theorem witness_BackToBackCommandsHaveNoHazard :
    inDomain (.add 5 7) = true ∧ inDomain (.mul 5 7) = true ∧
    ((State.reset.present (encode (.add 5 7))).present (encode (.mul 5 7))).pending =
      [encode (.add 5 7), encode (.mul 5 7)] := by decide

theorem witness_ResetIsNotObservable : inDomain (.mulReduce159 3 5) = true := by decide

theorem witness_AssemblerLineIsOneCommand :
    AsmLine.wellFormed (([("a", 1)] : List (String × Word)).map Prod.fst)
      { bind := some "c", op := .addFast, x := .named "a", y := .const .symbolEpsilon } = true ∧
    State.reset.pending = [] := by decide

end Sys2Proof.Tests
end

section
/-! SUPPORT. Each datapath's word as a number. The two corrections by EPSILON, on a borrow and on a carry, are named
once, since the adder and the multiplier share them. -/

namespace Sys2Proof.Machine

/-- A wrapped difference from which EPSILON is subtracted when it borrowed (40_modular_adder.md R48,
41_modular_multiplier.md R56, R57). -/
def subCorrected (a b : Word) : Word :=
  let difference := ovfSub64 a b
  if difference.2 = 1 then wrapSub64 difference.1 epsilon else difference.1

/-- A wrapped sum to which EPSILON is added when it carried (41_modular_multiplier.md R56). -/
def addCorrected (a b : Word) : Word :=
  let sum := ovfAdd64 a b
  if sum.2 = 1 then wrapAdd64 sum.1 epsilon else sum.1

/-- The word `b` of 41_modular_multiplier.md R57, made from the low half of the product. -/
def redcQuotient (xl : Word) : Word :=
  let sum := ovfAdd64 xl (shl64 xl 32)
  wrapSub64 (wrapSub64 sum.1 (shr64 sum.1 32)) (zext64 sum.2)

/-- The borrow's mask selects EPSILON or 0, so subtracting it is the correction. -/
theorem wrapSub64_mask32_borrow (a b : Word) :
    wrapSub64 (ovfSub64 a b).1 (zext64 (mask32 (ovfSub64 a b).2)) = subCorrected a b := by
  by_cases hab : a.toNat < b.toNat
  · have hbw : (ovfSub64 a b).2 = 1 := if_pos hab
    rw [subCorrected, if_pos hbw, hbw, mask32_one]
    rfl
  · have hbw : (ovfSub64 a b).2 = 0 := if_neg hab
    rw [subCorrected, if_neg (by rw [hbw]; decide), hbw, mask32_zero]
    exact BitVec.sub_zero _

/-- With a subtrahend of at most P the corrected difference is the difference, or P more than it. -/
theorem subCorrected_toNat {a b : Word} (hb : b.toNat ≤ fieldModulus) :
    (subCorrected a b).toNat = if a.toNat < b.toNat then a.toNat + fieldModulus - b.toNat else a.toNat - b.toNat := by
  have ha := a.isLt
  simp only [fieldModulus] at *
  by_cases hab : a.toNat < b.toNat
  · simp only [subCorrected, ovfSub64_snd, hab, if_true, wrapSub64_toNat, ovfSub64_fst_toNat, epsilon_toNat]
    omega
  · simp only [subCorrected, ovfSub64_snd, hab, if_false, ovfSub64_fst_toNat, BitVec.reduceEq]
    omega

/-- When the wrapped sum leaves room for EPSILON the corrected sum is the sum, or P less than it. -/
theorem addCorrected_toNat {a b : Word} (hab : a.toNat + b.toNat < 2 ^ 64 + fieldModulus) :
    (addCorrected a b).toNat =
      if 2 ^ 64 ≤ a.toNat + b.toNat then a.toNat + b.toNat - fieldModulus else a.toNat + b.toNat := by
  simp only [fieldModulus] at *
  by_cases hc : 2 ^ 64 ≤ a.toNat + b.toNat
  · simp only [addCorrected, ovfAdd64_snd, hc, if_true, wrapAdd64_toNat, ovfAdd64_fst_toNat, epsilon_toNat]
    omega
  · simp only [addCorrected, ovfAdd64_snd, hc, if_false, ovfAdd64_fst_toNat, BitVec.reduceEq]
    omega

/-- Subtracting P once canonicalises any word, since 2^64 is less than twice P. -/
theorem canonicalise_toNat (v : Word) : (canonicalise v).toNat = v.toNat % fieldModulus := by
  have hv := v.isLt
  simp only [fieldModulus] at *
  by_cases h : 18446744069414584321 ≤ v.toNat
  · have hle : modulus ≤ v := by simpa [BitVec.le_def] using h
    rw [canonicalise, if_pos hle, BitVec.toNat_sub, modulus_toNat]
    omega
  · have hle : ¬ modulus ≤ v := by simpa [BitVec.le_def] using h
    rw [canonicalise, if_neg hle]
    omega

/-! ### The adder -/

/-- The widened sum does not wrap. -/
theorem zext128_add_toNat (x y : Word) : (zext128 x + zext128 y).toNat = x.toNat + y.toNat := by
  have hx := x.isLt
  have hy := y.isLt
  rw [BitVec.toNat_add, zext128_toNat x (by decide), zext128_toNat y (by decide)]
  omega

theorem addResult_toNat (x y : Word) : (addResult x y).toNat = (x.toNat + y.toNat) % fieldModulus := by
  simp only [addResult, lowWord_toNat, BitVec.toNat_umod, zext128_add_toNat, modulusWide_toNat, fieldModulus]
  omega

theorem addFastResult_toNat {x y : Word} (hx : x.toNat < fieldModulus) (hy : y.toNat < fieldModulus) :
    (addFastResult x y).toNat = (x.toNat + y.toNat) % fieldModulus := by
  have hsum := zext128_add_toNat x y
  simp only [fieldModulus] at *
  by_cases h : 18446744069414584321 ≤ x.toNat + y.toNat
  · have hle : modulusWide ≤ zext128 x + zext128 y := by rwa [BitVec.le_def, hsum, modulusWide_toNat]
    simp only [addFastResult, if_pos hle, lowWord_toNat, BitVec.toNat_sub, hsum, modulusWide_toNat]
    omega
  · have hle : ¬ modulusWide ≤ zext128 x + zext128 y := by rwa [BitVec.le_def, hsum, modulusWide_toNat]
    simp only [addFastResult, if_neg hle, lowWord_toNat, hsum]
    omega

/-- ADD_WINTERFELL is the corrected difference of `x` and `P - y`. -/
theorem addWinterfellResult_eq (x y : Word) :
    addWinterfellResult x y = subCorrected x (wrapSub64 modulus y) :=
  wrapSub64_mask32_borrow x (wrapSub64 modulus y)

theorem addWinterfellResult_toNat {x y : Word} (hx : x.toNat < fieldModulus) (hy : y.toNat < fieldModulus) :
    (addWinterfellResult x y).toNat = (x.toNat + y.toNat) % fieldModulus := by
  have ht : (wrapSub64 modulus y).toNat = fieldModulus - y.toNat := by
    rw [wrapSub64_toNat, modulus_toNat]
    simp only [fieldModulus] at *
    omega
  rw [addWinterfellResult_eq, subCorrected_toNat (by omega), ht]
  simp only [fieldModulus] at *
  split <;> omega

/-! ### The multiplier -/

theorem mulResult_toNat (x y : Word) : (mulResult x y).toNat = x.toNat * y.toNat % fieldModulus := by
  have ht : (zext128 x * zext128 y).toNat = x.toNat * y.toNat := umul128_toNat x y
  simp only [mulResult, lowWord_toNat, BitVec.toNat_umod, ht, modulusWide_toNat, fieldModulus]
  omega

/-- A limb times EPSILON does not wrap (41_modular_multiplier.md R56, `t1`). -/
theorem limb_mul_epsilon_toNat (c : Limb) :
    (wrapSub64 (shl64 (zext64 c) 32) (zext64 c)).toNat = c.toNat * 4294967295 := by
  have hc := c.isLt
  rw [wrapSub64_toNat, shl64_toNat, zext64_toNat c (by decide)]
  omega

/-- MUL_REDUCE159 folds the upper limbs into the low half, with both corrections, and canonicalises. -/
theorem mulReduce159Result_eq (x y : Word) :
    let t := umul128 x y
    let c := lowLimb (highWord t)
    mulReduce159Result x y =
      canonicalise (addCorrected (subCorrected (lowWord t) (zext64 (highLimb (highWord t))))
        (wrapSub64 (shl64 (zext64 c) 32) (zext64 c))) :=
  rfl

/-- The low half and the two upper limbs make up the wide value. -/
theorem limbs_toNat (t : Wide) :
    t.toNat = (lowWord t).toNat + (lowLimb (highWord t)).toNat * 2 ^ 64 + (highLimb (highWord t)).toNat * 2 ^ 96 := by
  rw [lowWord_toNat, lowLimb_toNat, highLimb_toNat, highWord_toNat]
  omega

/-- The fold keeps the residue because 2^64 is EPSILON and 2^96 is -1 modulo P. -/
theorem mulReduce159Result_toNat (x y : Word) :
    (mulReduce159Result x y).toNat = x.toNat * y.toNat % fieldModulus := by
  rw [mulReduce159Result_eq, canonicalise_toNat, ← umul128_toNat x y]
  generalize umul128 x y = t
  have ht := limbs_toNat t
  have hlo := (lowWord t).isLt
  have hc := (lowLimb (highWord t)).isLt
  have hd := (highLimb (highWord t)).isLt
  have hdz := zext64_toNat (highLimb (highWord t)) (by decide)
  have ht0 := subCorrected_toNat (a := lowWord t) (b := zext64 (highLimb (highWord t)))
    (by simp only [fieldModulus]; omega)
  have ht1 := limb_mul_epsilon_toNat (lowLimb (highWord t))
  rw [addCorrected_toNat (by simp only [fieldModulus] at *; split at ht0 <;> omega), ht1]
  simp only [fieldModulus] at *
  split at ht0 <;> split <;> omega

/-- Shifting left by a limb keeps the low limb. -/
theorem shl64_limb_toNat (v : Word) : (shl64 v 32).toNat = v.toNat % 2 ^ 32 * 2 ^ 32 := by
  rw [shl64_toNat]
  omega

/-- The sum `a` of 41_modular_multiplier.md R57 with its carry, from the limbs of `xl`. -/
theorem redcSum_toNat (xl : Word) :
    let sum := ovfAdd64 xl (shl64 xl 32)
    sum.1.toNat + sum.2.toNat * 2 ^ 64 = (xl.toNat / 2 ^ 32 + xl.toNat % 2 ^ 32) * 2 ^ 32 + xl.toNat % 2 ^ 32 := by
  have hxl := xl.isLt
  simp only [ovfAdd64_fst_toNat, ovfAdd64_snd, shl64_limb_toNat]
  split
  · rw [show (1 : Bit).toNat = 1 from rfl]
    omega
  · rw [show (0 : Bit).toNat = 0 from rfl]
    omega

/-- R61, step (2): the subtractions that make `b` do not wrap. -/
theorem redcSum_shr64_add_carry_le (xl : Word) :
    let sum := ovfAdd64 xl (shl64 xl 32)
    (shr64 sum.1 32).toNat + sum.2.toNat ≤ sum.1.toNat := by
  have hxl := xl.isLt
  have hsum := redcSum_toNat xl
  simp only [shr64_toNat]
  omega

/-- R61, step (2): `b * 2^64` with `xl` as its low word is `a * P`. -/
theorem redcQuotient_toNat (xl : Word) :
    (redcQuotient xl).toNat * 2 ^ 64 + xl.toNat = (ovfAdd64 xl (shl64 xl 32)).1.toNat * fieldModulus := by
  have hsum := redcSum_toNat xl
  have hle := redcSum_shr64_add_carry_le xl
  have ha := (ovfAdd64 xl (shl64 xl 32)).1.isLt
  have hb : (redcQuotient xl).toNat + ((shr64 (ovfAdd64 xl (shl64 xl 32)).1 32).toNat +
      (ovfAdd64 xl (shl64 xl 32)).2.toNat) = (ovfAdd64 xl (shl64 xl 32)).1.toNat := by
    simp only [redcQuotient, wrapSub64_toNat, zext64_toNat (n := 1) _ (by decide)]
    omega
  rw [shr64_toNat] at hb
  simp only [fieldModulus]
  omega

/-- The quotient of a word times P by 2^64 is below P. -/
theorem redcQuotient_lt (xl : Word) : (redcQuotient xl).toNat < fieldModulus := by
  have hb := redcQuotient_toNat xl
  have ha := (ovfAdd64 xl (shl64 xl 32)).1.isLt
  simp only [fieldModulus] at *
  omega

/-- MUL_REDUCE_MONTGOMERY is the corrected difference of the high half and the quotient made from the low half. -/
theorem mulReduceMontgomeryResult_eq (x y : Word) :
    mulReduceMontgomeryResult x y =
      subCorrected (highWord (umul128 x y)) (redcQuotient (lowWord (umul128 x y))) :=
  wrapSub64_mask32_borrow _ _

/-- A canonical number is determined by its multiple by 2^64. -/
theorem eq_mul_radixInverse_mod {z t : Nat} (hz : z < fieldModulus) (h : z * 2 ^ 64 ≡ t [MOD fieldModulus]) :
    z = t * radixInverse % fieldModulus := by
  have hinv : 2 ^ 64 * radixInverse ≡ 1 [MOD fieldModulus] := by decide
  calc z = z * 1 % fieldModulus := by rw [Nat.mul_one, Nat.mod_eq_of_lt hz]
    _ = z * (2 ^ 64 * radixInverse) % fieldModulus := (hinv.mul_left z).symm
    _ = z * 2 ^ 64 * radixInverse % fieldModulus := by rw [Nat.mul_assoc]
    _ = t * radixInverse % fieldModulus := h.mul_right radixInverse

/-- The high half of a product of canonical operands is canonical. -/
theorem highWord_umul128_lt {x y : Word} (hx : x.toNat < fieldModulus) (hy : y.toNat < fieldModulus) :
    (highWord (umul128 x y)).toNat < fieldModulus := by
  have hxy : x.toNat * y.toNat < fieldModulus * fieldModulus := Nat.mul_lt_mul'' hx hy
  rw [highWord_toNat, umul128_toNat]
  simp only [fieldModulus] at *
  omega

/-- The multiple of P that `redcQuotient` accounts for drops out of the product, and what is left is 2^64 times the
result. -/
theorem mulReduceMontgomeryResult_toNat {x y : Word} (hx : x.toNat < fieldModulus) (hy : y.toNat < fieldModulus) :
    (mulReduceMontgomeryResult x y).toNat = x.toNat * y.toNat * radixInverse % fieldModulus := by
  have hxh := highWord_umul128_lt hx hy
  rw [mulReduceMontgomeryResult_eq, ← umul128_toNat x y]
  generalize umul128 x y = t at hxh ⊢
  have hq := redcQuotient_toNat (lowWord t)
  have hb := redcQuotient_lt (lowWord t)
  have hz := subCorrected_toNat (a := highWord t) hb.le
  rw [highWord_toNat] at hxh hz
  rw [lowWord_toNat] at hq
  refine eq_mul_radixInverse_mod ?_ ?_ <;> simp only [fieldModulus, Nat.ModEq] at *
  · split at hz <;> omega
  · split at hz <;> omega

end Sys2Proof.Machine
end

section
/-! SUPPORT. A command in its domain is answered with the promised value, whatever the state. -/

namespace Sys2Proof.Machine

/-- The host's duty on the two operands of an arithmetic operation, in integers. -/
theorem canonicalOperands_iff (x y : Word) :
    (isCanonical x && isCanonical y) = true ↔ x.toNat < fieldModulus ∧ y.toNat < fieldModulus := by
  rw [Bool.and_eq_true, isCanonical_iff, isCanonical_iff]

/-- An arithmetic operation on canonical operands answers its datapath's word in every state. -/
theorem answers_of_canonical {f : Word → Word → Word} {i : Instr} {x y : Word}
    (hexec : ∀ s, exec i s = answerArithmetic f i x y s) (hx : x.toNat < fieldModulus) (hy : y.toNat < fieldModulus) :
    Answers i (f x y) := fun s =>
  (hexec s).trans (answerArithmetic_canonical f i s ((isCanonical_iff x).2 hx) ((isCanonical_iff y).2 hy))

/-- The comparator answers its datapath's word in every state. -/
theorem answers_montgomeryEquals (lhs rhs : Word) :
    Answers (.montgomeryEquals lhs rhs) (montgomeryEqualsResult lhs rhs) :=
  answerAny_eq montgomeryEqualsResult _ lhs rhs

theorem montgomeryEqualsResult_toNat (lhs rhs : Word) :
    (montgomeryEqualsResult lhs rhs).toNat = if lhs.toNat = rhs.toNat then 1 else 0 := by
  simp only [montgomeryEqualsResult, BitVec.xor_eq_zero_iff, BitVec.toNat_inj]
  split <;> rfl

theorem montgomeryEqualsResult_eq_zero_or_one (lhs rhs : Word) :
    montgomeryEqualsResult lhs rhs = 0 ∨ montgomeryEqualsResult lhs rhs = 1 :=
  (ite_eq_or_eq _ _ _).symm

/-- On operands in the domain, a datapath whose word has the value `n` makes the operation answer `n`. -/
theorem exists_answers_of_canonical {f : Word → Word → Word} {i : Instr} {x y : Word} {n : Nat}
    (hexec : ∀ s, exec i s = answerArithmetic f i x y s) (h : (isCanonical x && isCanonical y) = true)
    (hval : x.toNat < fieldModulus → y.toNat < fieldModulus → (f x y).toNat = n) :
    ∃ z : Word, Answers i z ∧ z.toNat = n := by
  obtain ⟨hx, hy⟩ := (canonicalOperands_iff x y).1 h
  exact ⟨f x y, answers_of_canonical hexec hx hy, hval hx hy⟩

/-- Every command in its domain has the response that the rules promise. -/
theorem exists_answers_promisedValue {i : Instr} (h : inDomain i = true) :
    ∃ z : Word, Answers i z ∧ z.toNat = promisedValue i := by
  cases i with
  | add x y => exact exists_answers_of_canonical (fun _ => rfl) h fun _ _ => addResult_toNat x y
  | addFast x y => exact exists_answers_of_canonical (fun _ => rfl) h addFastResult_toNat
  | addWinterfell x y => exact exists_answers_of_canonical (fun _ => rfl) h addWinterfellResult_toNat
  | mul x y => exact exists_answers_of_canonical (fun _ => rfl) h fun _ _ => mulResult_toNat x y
  | mulReduce159 x y => exact exists_answers_of_canonical (fun _ => rfl) h fun _ _ => mulReduce159Result_toNat x y
  | mulReduceMontgomery x y => exact exists_answers_of_canonical (fun _ => rfl) h mulReduceMontgomeryResult_toNat
  | montgomeryEquals lhs rhs => exact ⟨_, answers_montgomeryEquals lhs rhs, montgomeryEqualsResult_toNat lhs rhs⟩

/-- The promise of an arithmetic operation is canonical. -/
theorem promisedValue_lt {i : Instr} (h : i.op ≠ .montgomeryEquals) : promisedValue i < fieldModulus := by
  cases i with
  | montgomeryEquals lhs rhs => exact absurd rfl h
  | _ => exact Nat.mod_lt _ (by decide)

/-- Every addition is in its domain on canonical operands and promises the sum. -/
theorem inDomain_promisedValue_addition {A : Word → Word → Instr} (hA : A ∈ additions) {x y : Word}
    (hx : x.toNat < fieldModulus) (hy : y.toNat < fieldModulus) :
    inDomain (A x y) = true ∧ promisedValue (A x y) = (x.toNat + y.toNat) % fieldModulus := by
  have hdom := (canonicalOperands_iff x y).2 ⟨hx, hy⟩
  simp only [additions, List.mem_cons, List.not_mem_nil, or_false] at hA
  obtain rfl | rfl | rfl := hA <;> exact ⟨hdom, rfl⟩

/-- Every plain multiplication is in its domain on canonical operands and promises the product. -/
theorem inDomain_promisedValue_multiplication {M : Word → Word → Instr} (hM : M ∈ multiplications) {x y : Word}
    (hx : x.toNat < fieldModulus) (hy : y.toNat < fieldModulus) :
    inDomain (M x y) = true ∧ promisedValue (M x y) = x.toNat * y.toNat % fieldModulus := by
  have hdom := (canonicalOperands_iff x y).2 ⟨hx, hy⟩
  simp only [multiplications, List.mem_cons, List.not_mem_nil, or_false] at hM
  obtain rfl | rfl := hM <;> exact ⟨hdom, rfl⟩

/-- A canonical word is its own true value. -/
theorem trueValue_of_lt {v : Word} (h : v.toNat < fieldModulus) : trueValue v = v.toNat :=
  Nat.mod_eq_of_lt h

/-- A command whose promise is a residue `n` modulo P is answered with a word of true value `n`. -/
theorem exists_answers_trueValue {i : Instr} {n : Nat} (h : inDomain i = true)
    (hval : promisedValue i = n % fieldModulus) :
    ∃ z : Word, Answers i z ∧ trueValue z = n % fieldModulus := by
  obtain ⟨z, hans, hz⟩ := exists_answers_promisedValue h
  exact ⟨z, hans, by rw [trueValue, hz, hval, Nat.mod_mod]⟩

end Sys2Proof.Machine
end

section
/-! The statements of 10_state.md. -/

namespace Sys2Proof.Machine

/-- Settles O34: each response has the promised value, and canonical operands are their own true values. -/
theorem resultsDenoteFieldValues : Obligations.ResultsDenoteFieldValues := by
  refine ⟨by decide, by decide, fun x y hx hy => ?_⟩
  rw [trueValue_of_lt hx, trueValue_of_lt hy]
  refine ⟨fun A hA => ?_, fun M hM => ?_, ?_⟩
  · obtain ⟨hdom, hval⟩ := inDomain_promisedValue_addition hA hx hy
    exact exists_answers_trueValue hdom hval
  · obtain ⟨hdom, hval⟩ := inDomain_promisedValue_multiplication hM hx hy
    exact exists_answers_trueValue hdom hval
  · exact exists_answers_trueValue ((canonicalOperands_iff x y).2 ⟨hx, hy⟩) rfl

/-- Settles O35: an arithmetic promise is a residue modulo P, and the comparator's word is 0 or 1. -/
theorem resultRegimes : Obligations.ResultRegimes := by
  intro i h
  by_cases hop : i.op = .montgomeryEquals
  · refine ⟨montgomeryEqualsResult i.x i.y, ?_, ?_⟩
    · rw [← command_op i, hop]
      exact answers_montgomeryEquals i.x i.y
    · rw [if_pos hop]
      exact montgomeryEqualsResult_eq_zero_or_one i.x i.y
  · obtain ⟨z, hans, hz⟩ := exists_answers_promisedValue h
    refine ⟨z, hans, ?_⟩
    rw [if_neg hop, hz]
    exact promisedValue_lt hop

/-- Settles O12: the numbers are computed, and EPSILON is 2^64 - P. -/
theorem constantsOfTheField : Obligations.ConstantsOfTheField := by
  refine ⟨by decide, by decide, by decide, by decide, by decide, by decide, by decide, by decide, fun v => ?_,
    fun v => ?_⟩
  · rw [wrapSub64_toNat, epsilon_toNat, modulus_toNat]
    omega
  · rw [wrapAdd64_toNat, epsilon_toNat, modulus_toNat]
    omega

end Sys2Proof.Machine
end

section
/-! SUPPORT. The decoder and the encoder, said once: what decodes, what does not, and the way back. -/

namespace Sys2Proof

/-- Code 7 is the only one without an operation (30_encoding.md R38). -/
theorem ofCode_eq_none_iff : ∀ c : SelectCode, Op.ofCode c = none ↔ c = 7#3 := by
  decide

/-- The select map has no other operation at a code than the one whose code it is. -/
theorem code_of_ofCode {c : SelectCode} {op : Op} (h : Op.ofCode c = some op) : op.code = c := by
  have hall : ∀ c : SelectCode, ∀ op ∈ Op.ofCode c, op.code = c := by decide
  exact hall c op h

/-- The decoder on a word whose code has an operation. -/
theorem decode_of_ofCode_eq_some {cmd : CommandWord} {op : Op} (h : Op.ofCode (selectField cmd) = some op) :
    decode cmd = .ok (op.command (xField cmd) (yField cmd)) := by
  rw [decode, h]

/-- The decoder on a word whose code has none. -/
theorem decode_of_ofCode_eq_none {cmd : CommandWord} (h : Op.ofCode (selectField cmd) = none) :
    decode cmd = .error .reservedSelectCode := by
  rw [decode, h]

/-- Every code but 7 decodes, whatever the other 128 bits are. -/
theorem exists_decode_eq_ok {cmd : CommandWord} (h : selectField cmd ≠ 7#3) :
    ∃ op : Op, op.code = selectField cmd ∧ decode cmd = .ok (op.command (xField cmd) (yField cmd)) := by
  obtain ⟨op, hop⟩ := Option.ne_none_iff_exists'.1 (mt (ofCode_eq_none_iff _).1 h)
  exact ⟨op, code_of_ofCode hop, decode_of_ofCode_eq_some hop⟩

theorem decode_eq_error_iff (cmd : CommandWord) :
    decode cmd = .error .reservedSelectCode ↔ selectField cmd = 7#3 := by
  refine ⟨fun herr => ?_, fun h => decode_of_ofCode_eq_none ((ofCode_eq_none_iff _).2 h)⟩
  by_contra hne
  obtain ⟨op, -, hok⟩ := exists_decode_eq_ok hne
  exact nomatch herr.symm.trans hok

/-- An operation's code in front of two operand fields decodes to that operation with those operands. -/
theorem decode_code_append (op : Op) (x y : Word) : decode (op.code ++ (x ++ y)) = .ok (op.command x y) := by
  obtain ⟨hc, hx, hy⟩ := fields_of_layout op.code x y
  rw [decode_of_ofCode_eq_some (op := op) (by rw [hc, ofCode_code]), hx, hy]

theorem encode_command (op : Op) (x y : Word) : encode (op.command x y) = op.code ++ (x ++ y) := by
  rw [encode, op_command, x_command, y_command]

theorem decode_encode (i : Instr) : decode (encode i) = .ok i :=
  (decode_code_append i.op i.x i.y).trans (congrArg _ (command_op i))

end Sys2Proof
end

section
/-! SUPPORT. What every instruction and every step answers. -/

namespace Sys2Proof.Machine

/-- An arithmetic operation always answers: one transaction is observed, and only a draw is counted. -/
theorem exists_answerArithmetic_eq_next (f : Word → Word → Word) (i : Instr) (x y : Word) (s : State) :
    ∃ z, answerArithmetic f i x y s = .next
      { s with
        history := s.history ++ [{ command := i, response := z }]
        draws := if isCanonical x && isCanonical y then s.draws else s.draws + 1 } := by
  by_cases h : (isCanonical x && isCanonical y) = true
  · obtain ⟨hx, hy⟩ := Bool.and_eq_true_iff.1 h
    exact ⟨f x y, by rw [answerArithmetic_canonical f i s hx hy, if_pos h]; rfl⟩
  · exact ⟨Config.draw s.draws i, by rw [answerArithmetic_draw f i s (Bool.eq_false_iff.2 h), if_neg h]; rfl⟩

/-- Every instruction answers in every state: one transaction is observed, and a draw is counted outside the domain. -/
theorem exists_exec_eq_next (i : Instr) (s : State) :
    ∃ z, exec i s = .next
      { s with
        history := s.history ++ [{ command := i, response := z }]
        draws := if inDomain i then s.draws else s.draws + 1 } := by
  cases i with
  | montgomeryEquals lhs rhs => exact ⟨_, answerAny_eq montgomeryEqualsResult _ lhs rhs s⟩
  | _ x y => exact exists_answerArithmetic_eq_next _ _ x y s

/-- A step at a command that decodes runs its instruction once the command is taken. -/
theorem step_of_decode_ok {s : State} {cmd : CommandWord} {rest : List CommandWord} {i : Instr}
    (hs : s.pending = cmd :: rest) (hi : decode cmd = .ok i) : step s = exec i { s with pending := rest } := by
  rw [step, State.fetch_cons hs, hi, ← State.accept_cons hs]

/-- A step at a command that does not decode is refused. -/
theorem step_of_decode_error {s : State} {cmd : CommandWord} {rest : List CommandWord} {e : DecodeError}
    (hs : s.pending = cmd :: rest) (he : decode cmd = .error e) : step s = .refused (refusalOf e) := by
  rw [step, State.fetch_cons hs, he]

/-- A step at a command that decodes answers it. -/
theorem exists_step_eq_next {s : State} {cmd : CommandWord} {rest : List CommandWord} {i : Instr}
    (hs : s.pending = cmd :: rest) (hi : decode cmd = .ok i) :
    ∃ z, step s = .next
      { pending := rest
        history := s.history ++ [{ command := i, response := z }]
        draws := if inDomain i then s.draws else s.draws + 1 } := by
  rw [step_of_decode_ok hs hi]
  exact exists_exec_eq_next i _

theorem step_eq_refused_iff {s : State} {cmd : CommandWord} {rest : List CommandWord} (hs : s.pending = cmd :: rest) :
    step s = .refused .reservedSelectCode ↔ selectField cmd = 7#3 := by
  refine ⟨fun href => ?_, fun h => step_of_decode_error hs ((decode_eq_error_iff cmd).2 h)⟩
  by_contra hne
  obtain ⟨op, -, hok⟩ := exists_decode_eq_ok hne
  obtain ⟨z, hnext⟩ := exists_step_eq_next hs hok
  exact nomatch href.symm.trans hnext

end Sys2Proof.Machine
end

section
/-! SUPPORT. The host's side: what an operand stands for, and what running a line does (30_encoding.md R41). -/

namespace Sys2Proof.Machine

/-- A constant stands for its value, which must lie in [0, 2^64). -/
theorem exists_resolveOperand_const (names : List (String × Word)) {e : ConstExpr}
    (h0 : 0 ≤ e.value) (h64 : e.value < 2 ^ 64) :
    ∃ v : Word, resolveOperand names (.const e) = .ok v ∧ (v.toNat : Int) = e.value := by
  refine ⟨BitVec.ofInt 64 e.value, by rw [resolveOperand, if_pos ⟨h0, h64⟩], ?_⟩
  rw [BitVec.toNat_ofInt]
  omega

/-- A name stands for the response it was bound to last. -/
theorem resolveOperand_named {names : List (String × Word)} {n : String} {v : Word} (h : names.lookup n = some v) :
    resolveOperand names (.named n) = .ok v := by
  rw [resolveOperand, h]

/-- A bound name has a response. -/
theorem exists_lookup_eq_some {names : List (String × Word)} {n : String} (h : n ∈ names.map Prod.fst) :
    ∃ v, names.lookup n = some v := by
  obtain ⟨⟨m, v⟩, hp, rfl⟩ := List.mem_map.1 h
  refine Option.ne_none_iff_exists'.1 fun hnone => ?_
  simpa using List.lookup_eq_none_iff.1 hnone _ hp

/-- A well-formed operand stands for one word: a constant for its value, a name for its response. -/
theorem exists_resolveOperand_eq_ok {names : List (String × Word)} {a : AsmOperand}
    (h : a.wellFormed (names.map Prod.fst) = true) :
    ∃ v : Word, resolveOperand names a = .ok v ∧ (∀ e, a = .const e → (v.toNat : Int) = e.value) ∧
      (∀ n, a = .named n → names.lookup n = some v) := by
  cases a with
  | const e =>
    simp only [AsmOperand.wellFormed, Bool.and_eq_true, decide_eq_true_eq] at h
    obtain ⟨h0, h64⟩ := h
    obtain ⟨v, hv, hval⟩ := exists_resolveOperand_const names h0 h64
    exact ⟨v, hv, fun _ he => by cases he; exact hval, nofun⟩
  | named n =>
    obtain ⟨v, hv⟩ := exists_lookup_eq_some (List.contains_iff_mem.1 h)
    exact ⟨v, resolveOperand_named hv, nofun, fun _ hn => by cases hn; exact hv⟩

/-- A line whose operands resolve stands for the one command of its own operation. -/
theorem resolveLine_eq_ok {names : List (String × Word)} {l : AsmLine} {x y : Word}
    (hx : resolveOperand names l.x = .ok x) (hy : resolveOperand names l.y = .ok y) :
    resolveLine names l = .ok (l.op.command x y) := by
  rw [resolveLine, hx, hy]

/-- A line whose command is answered binds its name, if it has one, to the latest response. -/
theorem runLine_of_step {h : Session} {l : AsmLine} {i : Instr} {s : State} {t : Transaction}
    (hi : resolveLine h.names l = .ok i) (hs : step (h.unit.present (encode i)) = .next s)
    (ht : s.history.getLast? = some t) :
    runLine h l = .ok
      { unit := s, names := match l.bind with | some n => (n, t.response) :: h.names | none => h.names } := by
  cases hb : l.bind <;> simp only [runLine, hi, hs, ht, hb]

end Sys2Proof.Machine
end

section
/-! The statements of 30_encoding.md. -/

namespace Sys2Proof.Machine

/-- Settles O1: the select map decides what decodes, and the layout's fields give the command back. -/
theorem decodeAndEncodeAgree : Obligations.DecodeAndEncodeAgree := by
  refine ⟨decode_eq_error_iff, fun _ => exists_decode_eq_ok, fun op x y => ?_, decode_encode⟩
  rw [encode_command, layout_toNat]

/-- Settles O5: a step is refused exactly when the word does not decode, and taking it leaves the next one first. -/
theorem reservedCodeIsRefused : Obligations.ReservedCodeIsRefused := by
  refine ⟨fun _ _ _ => step_eq_refused_iff, fun cmd h => ?_, fun s bad cmd rest hs _ hcmd => ?_⟩
  · obtain ⟨op, -, hok⟩ := exists_decode_eq_ok h
    exact ⟨_, hok⟩
  · have hnext : s.accept.pending = cmd :: rest := by rw [State.accept_cons hs]
    obtain ⟨op, -, hok⟩ := exists_decode_eq_ok hcmd
    obtain ⟨z, hz⟩ := exists_step_eq_next hnext hok
    exact ⟨_, hz⟩

/-- Settles O41: both operands resolve, and the unit, with nothing else to answer, answers the line's command. -/
theorem assemblerLineIsOneCommand : Obligations.AssemblerLineIsOneCommand := by
  intro h l hl hidle
  obtain ⟨hlx, hly⟩ := Bool.and_eq_true_iff.1 hl
  obtain ⟨x, hx, hxc, hxn⟩ := exists_resolveOperand_eq_ok hlx
  obtain ⟨y, hy, hyc, hyn⟩ := exists_resolveOperand_eq_ok hly
  have hi := resolveLine_eq_ok hx hy
  have hpending : (h.unit.present (encode (l.op.command x y))).pending = [encode (l.op.command x y)] := by
    rw [State.present_pending, hidle, List.nil_append]
  obtain ⟨z, hz⟩ := exists_step_eq_next hpending (decode_encode _)
  exact ⟨x, y, z, _, hi, hxc, hyc, hxn, hyn, rfl, rfl, runLine_of_step hi hz List.getLast?_concat⟩

/-- Settles O3: each row of the select map is an operation's code in front of its operands. -/
theorem selectCodesSpellOperations : Obligations.SelectCodesSpellOperations := by
  refine ⟨fun x y => ⟨decode_code_append .add x y, decode_code_append .addFast x y,
    decode_code_append .addWinterfell x y, decode_code_append .mul x y, decode_code_append .mulReduce159 x y,
    decode_code_append .mulReduceMontgomery x y, decode_code_append .montgomeryEquals x y,
    (decode_eq_error_iff _).2 (fields_of_layout 7#3 x y).1⟩, rfl, rfl, rfl, rfl, rfl, rfl, rfl⟩

end Sys2Proof.Machine
end

section
/-! SUPPORT. A command's response is known by its value, and what the additions and plain multiplications answer. -/

namespace Sys2Proof.Machine

/-- The word with the promised value is the response to a command in its domain. -/
theorem answers_of_toNat_eq_promisedValue {i : Instr} {z : Word} (h : inDomain i = true)
    (hz : z.toNat = promisedValue i) : Answers i z := by
  obtain ⟨z', hans, hz'⟩ := exists_answers_promisedValue h
  rwa [BitVec.eq_of_toNat_eq (hz.trans hz'.symm)]

/-- A command that promises a residue modulo P is answered with it, which is canonical. -/
theorem exists_answers_residue {i : Instr} {n : Nat} (h : inDomain i = true)
    (hval : promisedValue i = n % fieldModulus) :
    ∃ z : Word, z.toNat = n % fieldModulus ∧ z.toNat < fieldModulus ∧ Answers i z := by
  obtain ⟨z, hans, hz⟩ := exists_answers_promisedValue h
  have hn := hz.trans hval
  exact ⟨z, hn, hn ▸ Nat.mod_lt n (by decide), hans⟩

/-- The word with the value of the reduced sum is the response of every addition. -/
theorem answers_addition_of_toNat_eq {A : Word → Word → Instr} (hA : A ∈ additions) {x y z : Word}
    (hx : x.toNat < fieldModulus) (hy : y.toNat < fieldModulus) (hz : z.toNat = (x.toNat + y.toNat) % fieldModulus) :
    Answers (A x y) z := by
  obtain ⟨hdom, hval⟩ := inDomain_promisedValue_addition hA hx hy
  exact answers_of_toNat_eq_promisedValue hdom (hz.trans hval.symm)

/-- The word with the value of the reduced product is the response of every plain multiplication. -/
theorem answers_multiplication_of_toNat_eq {M : Word → Word → Instr} (hM : M ∈ multiplications) {x y z : Word}
    (hx : x.toNat < fieldModulus) (hy : y.toNat < fieldModulus) (hz : z.toNat = x.toNat * y.toNat % fieldModulus) :
    Answers (M x y) z := by
  obtain ⟨hdom, hval⟩ := inDomain_promisedValue_multiplication hM hx hy
  exact answers_of_toNat_eq_promisedValue hdom (hz.trans hval.symm)

/-- Every addition answers canonical operands with the reduced sum, which is canonical again. -/
theorem exists_answers_addition {A : Word → Word → Instr} (hA : A ∈ additions) {x y : Word}
    (hx : x.toNat < fieldModulus) (hy : y.toNat < fieldModulus) :
    ∃ z : Word, z.toNat = (x.toNat + y.toNat) % fieldModulus ∧ z.toNat < fieldModulus ∧ Answers (A x y) z := by
  obtain ⟨hdom, hval⟩ := inDomain_promisedValue_addition hA hx hy
  exact exists_answers_residue hdom hval

/-- Every plain multiplication answers canonical operands with the reduced product, which is canonical again. -/
theorem exists_answers_multiplication {M : Word → Word → Instr} (hM : M ∈ multiplications) {x y : Word}
    (hx : x.toNat < fieldModulus) (hy : y.toNat < fieldModulus) :
    ∃ z : Word, z.toNat = x.toNat * y.toNat % fieldModulus ∧ z.toNat < fieldModulus ∧ Answers (M x y) z := by
  obtain ⟨hdom, hval⟩ := inDomain_promisedValue_multiplication hM hx hy
  exact exists_answers_residue hdom hval

/-! ### The steps of ADD_WINTERFELL (40_modular_adder.md R48) -/

/-- The borrow in integers. -/
theorem ovfSub64_borrow_iff (a b : Word) : (ovfSub64 a b).2 = 1 ↔ a.toNat < b.toNat := by
  rw [ovfSub64_snd, ite_eq_left_iff, imp_iff_not (by decide), not_not]

/-- `P - y` does not wrap. -/
theorem wrapSub64_modulus_toNat {y : Word} (hy : y.toNat < fieldModulus) :
    (wrapSub64 modulus y).toNat = fieldModulus - y.toNat := by
  rw [wrapSub64_toNat, modulus_toNat]
  simp only [fieldModulus] at *
  omega

/-- The subtraction of `P - y` borrows exactly when the sum is below P. -/
theorem ovfSub64_modulus_sub_borrow_iff (x : Word) {y : Word} (hy : y.toNat < fieldModulus) :
    (ovfSub64 x (wrapSub64 modulus y)).2 = 1 ↔ x.toNat + y.toNat < fieldModulus := by
  rw [ovfSub64_borrow_iff, wrapSub64_modulus_toNat hy, Nat.lt_sub_iff_add_lt]

/-- On a borrow the difference wraps once, to EPSILON more than the sum, since 2^64 is P + EPSILON. -/
theorem ovfSub64_modulus_sub_toNat {x y : Word} (hx : x.toNat < fieldModulus) (hy : y.toNat < fieldModulus) :
    (ovfSub64 x (wrapSub64 modulus y)).1.toNat =
      if x.toNat + y.toNat < fieldModulus then x.toNat + y.toNat + epsilon.toNat
      else x.toNat + y.toNat - fieldModulus := by
  rw [ovfSub64_fst_toNat, wrapSub64_modulus_toNat hy, epsilon_toNat]
  simp only [fieldModulus] at *
  split <;> omega

/-! ### The laws of the additions (40_modular_adder.md R50) -/

theorem addition_comm {A : Word → Word → Instr} (hA : A ∈ additions) {x y : Word}
    (hx : x.toNat < fieldModulus) (hy : y.toNat < fieldModulus) : ∃ z, Answers (A x y) z ∧ Answers (A y x) z := by
  obtain ⟨z, hz, -, hans⟩ := exists_answers_addition hA hx hy
  exact ⟨z, hans, answers_addition_of_toNat_eq hA hy hx (by rw [hz, Nat.add_comm])⟩

theorem addition_assoc {A : Word → Word → Instr} (hA : A ∈ additions) {x y w : Word}
    (hx : x.toNat < fieldModulus) (hy : y.toNat < fieldModulus) (hw : w.toNat < fieldModulus) :
    ∃ u v z, Answers (A x y) u ∧ u.toNat < fieldModulus ∧ Answers (A y w) v ∧ v.toNat < fieldModulus ∧
      Answers (A u w) z ∧ Answers (A x v) z := by
  obtain ⟨u, hu, hult, hansu⟩ := exists_answers_addition hA hx hy
  obtain ⟨v, hv, hvlt, hansv⟩ := exists_answers_addition hA hy hw
  obtain ⟨z, hz, -, hansz⟩ := exists_answers_addition hA hult hw
  have hxv : z.toNat = (x.toNat + v.toNat) % fieldModulus := by
    rw [hz, hu, hv, Nat.mod_add_mod, Nat.add_mod_mod, Nat.add_assoc]
  exact ⟨u, v, z, hansu, hult, hansv, hvlt, hansz, answers_addition_of_toNat_eq hA hx hvlt hxv⟩

theorem addition_zero {A : Word → Word → Instr} (hA : A ∈ additions) {x : Word} (hx : x.toNat < fieldModulus) :
    Answers (A x 0) x ∧ Answers (A 0 x) x := by
  have h0 : (0 : Word).toNat < fieldModulus := by decide
  have hzero : x.toNat = (0 + x.toNat) % fieldModulus := by rw [Nat.zero_add, Nat.mod_eq_of_lt hx]
  exact ⟨answers_addition_of_toNat_eq hA hx h0 (Nat.mod_eq_of_lt hx).symm,
    answers_addition_of_toNat_eq hA h0 hx hzero⟩

theorem multiplication_addition_distrib {A M : Word → Word → Instr} (hA : A ∈ additions) (hM : M ∈ multiplications)
    {x y w : Word} (hx : x.toNat < fieldModulus) (hy : y.toNat < fieldModulus) (hw : w.toNat < fieldModulus) :
    ∃ u p q z, Answers (A y w) u ∧ Answers (M x u) z ∧ Answers (M x y) p ∧ Answers (M x w) q ∧ Answers (A p q) z := by
  obtain ⟨u, hu, hult, hansu⟩ := exists_answers_addition hA hy hw
  obtain ⟨p, hp, hplt, hansp⟩ := exists_answers_multiplication hM hx hy
  obtain ⟨q, hq, hqlt, hansq⟩ := exists_answers_multiplication hM hx hw
  obtain ⟨z, hz, -, hansz⟩ := exists_answers_multiplication hM hx hult
  have hpq : z.toNat = (p.toNat + q.toNat) % fieldModulus := by
    rw [hz, hu, hp, hq, Nat.mul_mod_mod, Nat.mul_add, Nat.add_mod]
  exact ⟨u, p, q, z, hansu, hansz, hansp, hansq, answers_addition_of_toNat_eq hA hplt hqlt hpq⟩

end Sys2Proof.Machine
end

section
/-! The statements of 40_modular_adder.md. -/

namespace Sys2Proof.Machine

/-- Settles O14: ADD is an addition, whose response is the promised sum. -/
theorem addIsSumModP : Obligations.AddIsSumModP := by
  intro x y s hx hy
  obtain ⟨hcode, -, -⟩ := Laws.EncodedFields.add x y
  obtain ⟨z, hz, hlt, hans⟩ := exists_answers_addition (A := .add) (by simp [additions]) hx hy
  exact ⟨hcode, rfl, z, hz, hlt, hans s⟩

/-- Settles O15: the remainder of a sum of two canonical numbers is one conditional subtraction. -/
theorem addFastSubtractsAtLeastP : Obligations.AddFastSubtractsAtLeastP := by
  intro x y s hx hy
  obtain ⟨hcode, -, -⟩ := Laws.EncodedFields.addFast x y
  obtain ⟨z, hz, hlt, hans⟩ := exists_answers_addition (A := .addFast) (by simp [additions]) hx hy
  have hsub : z.toNat =
      if fieldModulus ≤ x.toNat + y.toNat then x.toNat + y.toNat - fieldModulus else x.toNat + y.toNat := by
    rw [hz, Nat.add_mod_eq_ite, Nat.mod_eq_of_lt hx, Nat.mod_eq_of_lt hy]
  exact ⟨hcode, rfl, z, hsub, hz, hlt, hans s⟩

/-- Settles O16: the datapath's steps in integers, and the response that they make. -/
theorem addWinterfellBorrowAndMask : Obligations.AddWinterfellBorrowAndMask := by
  intro x y s hx hy
  obtain ⟨hcode, -, -⟩ := Laws.EncodedFields.addWinterfell x y
  obtain ⟨z, hz, hlt, hans⟩ := exists_answers_addition (A := .addWinterfell) (by simp [additions]) hx hy
  exact ⟨hcode, rfl, wrapSub64_modulus_toNat hy, ovfSub64_modulus_sub_borrow_iff x hy,
    ovfSub64_modulus_sub_toNat hx hy, z, hz, hlt, hans s⟩

/-- Settles O17: the word of the reduced sum is the response of all three. -/
theorem additionVariantsAgree : Obligations.AdditionVariantsAgree := by
  intro x y hx hy
  obtain ⟨z, hz, -, hadd⟩ := exists_answers_addition (A := .add) (by simp [additions]) hx hy
  exact ⟨z, hadd, answers_addition_of_toNat_eq (by simp [additions]) hx hy hz,
    answers_addition_of_toNat_eq (by simp [additions]) hx hy hz⟩

/-- Settles O18: the laws of addition and multiplication modulo P. -/
theorem additionLaws : Obligations.AdditionLaws := by
  intro A hA x y w hx hy hw
  obtain ⟨hright, hleft⟩ := addition_zero hA hx
  exact ⟨addition_comm hA hx hy, addition_assoc hA hx hy hw, hright, hleft,
    fun _ hM => multiplication_addition_distrib hA hM hx hy hw⟩

end Sys2Proof.Machine
end

section
/-! SUPPORT. The three multiplications share one law: the response is the product times a fixed factor, which is 1 for
the plain ones and 2^-64 for the Montgomery one. -/

namespace Sys2Proof.Machine

/-- On canonical operands `M` is in its domain and promises the product times `k`, modulo P (41_modular_multiplier.md
R60). -/
def MultipliesBy (k : Nat) (M : Word → Word → Instr) : Prop :=
  ∀ x y : Word, x.toNat < fieldModulus → y.toNat < fieldModulus →
    inDomain (M x y) = true ∧ promisedValue (M x y) = x.toNat * y.toNat * k % fieldModulus

theorem multipliesBy_one {M : Word → Word → Instr} (hM : M ∈ multiplications) : MultipliesBy 1 M := by
  intro x y hx hy
  rw [Nat.mul_one]
  exact inDomain_promisedValue_multiplication hM hx hy

theorem multipliesBy_radixInverse : MultipliesBy radixInverse .mulReduceMontgomery := by
  intro x y hx hy
  exact ⟨(canonicalOperands_iff x y).2 ⟨hx, hy⟩, rfl⟩

/-- Each of the three multiplications has a factor. -/
theorem exists_multipliesBy {M : Word → Word → Instr} (hM : M ∈ multiplications ++ [Instr.mulReduceMontgomery]) :
    ∃ k, MultipliesBy k M := by
  obtain hplain | hmont := List.mem_append.1 hM
  · exact ⟨1, multipliesBy_one hplain⟩
  · rw [List.mem_singleton.1 hmont]
    exact ⟨radixInverse, multipliesBy_radixInverse⟩

section
variable {k : Nat} {M : Word → Word → Instr} (hM : MultipliesBy k M) {x y w : Word}
include hM

/-- The response to canonical operands is the reduced multiple of the product, which is canonical again. -/
theorem MultipliesBy.exists_answers (hx : x.toNat < fieldModulus) (hy : y.toNat < fieldModulus) :
    ∃ z : Word, z.toNat = x.toNat * y.toNat * k % fieldModulus ∧ z.toNat < fieldModulus ∧ Answers (M x y) z := by
  obtain ⟨hdom, hval⟩ := hM x y hx hy
  exact exists_answers_residue hdom hval

/-- The word with the value of the reduced multiple of the product is the response. -/
theorem MultipliesBy.answers_of_toNat_eq {z : Word} (hx : x.toNat < fieldModulus) (hy : y.toNat < fieldModulus)
    (hz : z.toNat = x.toNat * y.toNat * k % fieldModulus) : Answers (M x y) z := by
  obtain ⟨hdom, hval⟩ := hM x y hx hy
  exact answers_of_toNat_eq_promisedValue hdom (hz.trans hval.symm)

/-! ### The laws of the multiplications (41_modular_multiplier.md R60) -/

theorem MultipliesBy.comm (hx : x.toNat < fieldModulus) (hy : y.toNat < fieldModulus) :
    ∃ z, Answers (M x y) z ∧ Answers (M y x) z := by
  obtain ⟨z, hz, -, hans⟩ := hM.exists_answers hx hy
  exact ⟨z, hans, hM.answers_of_toNat_eq hy hx (by rw [hz, Nat.mul_comm x.toNat])⟩

/-- Either way of taking three operands together multiplies their product by `k` twice. -/
theorem MultipliesBy.assoc (hx : x.toNat < fieldModulus) (hy : y.toNat < fieldModulus) (hw : w.toNat < fieldModulus) :
    ∃ u v z, Answers (M x y) u ∧ u.toNat < fieldModulus ∧ Answers (M y w) v ∧ v.toNat < fieldModulus ∧
      Answers (M u w) z ∧ Answers (M x v) z := by
  obtain ⟨u, hu, hult, hansu⟩ := hM.exists_answers hx hy
  obtain ⟨v, hv, hvlt, hansv⟩ := hM.exists_answers hy hw
  obtain ⟨z, hz, -, hansz⟩ := hM.exists_answers hult hw
  have hxv : z.toNat = x.toNat * v.toNat * k % fieldModulus := by
    rw [hz, hu, hv]
    calc x.toNat * y.toNat * k % fieldModulus * w.toNat * k
        ≡ x.toNat * y.toNat * k * w.toNat * k [MOD fieldModulus] := ((Nat.mod_modEq _ _).mul_right _).mul_right _
      _ = x.toNat * (y.toNat * w.toNat * k) * k := by ring
      _ ≡ x.toNat * (y.toNat * w.toNat * k % fieldModulus) * k [MOD fieldModulus] :=
        ((Nat.mod_modEq _ _).symm.mul_left _).mul_right _
  exact ⟨u, v, z, hansu, hult, hansv, hvlt, hansz, hM.answers_of_toNat_eq hx hvlt hxv⟩

theorem MultipliesBy.zero (hx : x.toNat < fieldModulus) : Answers (M 0 x) 0 ∧ Answers (M x 0) 0 := by
  have h0 : (0 : Word).toNat < fieldModulus := by decide
  exact ⟨hM.answers_of_toNat_eq h0 hx (by simp), hM.answers_of_toNat_eq hx h0 (by simp)⟩

/-- A canonical word whose multiple by `k` is 1 is the identity. -/
theorem MultipliesBy.identity {e : Word} (he : e.toNat < fieldModulus) (hek : e.toNat * k ≡ 1 [MOD fieldModulus])
    (hx : x.toNat < fieldModulus) : Answers (M x e) x ∧ Answers (M e x) x := by
  have hxe : x.toNat = x.toNat * e.toNat * k % fieldModulus := by
    calc x.toNat = x.toNat * 1 % fieldModulus := by rw [Nat.mul_one, Nat.mod_eq_of_lt hx]
      _ = x.toNat * (e.toNat * k) % fieldModulus := (hek.mul_left x.toNat).symm
      _ = x.toNat * e.toNat * k % fieldModulus := by rw [Nat.mul_assoc]
  exact ⟨hM.answers_of_toNat_eq hx he hxe, hM.answers_of_toNat_eq he hx (by rwa [Nat.mul_comm e.toNat])⟩

theorem MultipliesBy.addition_distrib {A : Word → Word → Instr} (hA : A ∈ additions) (hx : x.toNat < fieldModulus)
    (hy : y.toNat < fieldModulus) (hw : w.toNat < fieldModulus) :
    ∃ u p q z, Answers (A y w) u ∧ Answers (M x u) z ∧ Answers (M x y) p ∧ Answers (M x w) q ∧ Answers (A p q) z := by
  obtain ⟨u, hu, hult, hansu⟩ := exists_answers_addition hA hy hw
  obtain ⟨p, hp, hplt, hansp⟩ := hM.exists_answers hx hy
  obtain ⟨q, hq, hqlt, hansq⟩ := hM.exists_answers hx hw
  obtain ⟨z, hz, -, hansz⟩ := hM.exists_answers hx hult
  have hpq : z.toNat = (p.toNat + q.toNat) % fieldModulus := by
    rw [hz, hu, hp, hq]
    calc x.toNat * ((y.toNat + w.toNat) % fieldModulus) * k
        ≡ x.toNat * (y.toNat + w.toNat) * k [MOD fieldModulus] := ((Nat.mod_modEq _ _).mul_left _).mul_right _
      _ = x.toNat * y.toNat * k + x.toNat * w.toNat * k := by ring
      _ ≡ x.toNat * y.toNat * k % fieldModulus + x.toNat * w.toNat * k % fieldModulus [MOD fieldModulus] :=
        (Nat.mod_modEq _ _).symm.add (Nat.mod_modEq _ _).symm
  exact ⟨u, p, q, z, hansu, hansz, hansp, hansq, answers_addition_of_toNat_eq hA hplt hqlt hpq⟩

end

/-! ### The Montgomery multiplication by its multiple (41_modular_multiplier.md R61, R62) -/

/-- The canonical word whose multiple by 2^64 is the product is the response of the Montgomery multiplication. -/
theorem answers_mulReduceMontgomery_of_modEq {x y z : Word} (hx : x.toNat < fieldModulus) (hy : y.toNat < fieldModulus)
    (hz : z.toNat < fieldModulus) (h : z.toNat * 2 ^ 64 ≡ x.toNat * y.toNat [MOD fieldModulus]) :
    Answers (.mulReduceMontgomery x y) z :=
  multipliesBy_radixInverse.answers_of_toNat_eq hx hy (eq_mul_radixInverse_mod hz h)

/-- `v'` is the Montgomery form of the number `n`: its multiple by 2^64 modulo P (41_modular_multiplier.md R62). -/
def IsMontgomeryForm (v' : Word) (n : Nat) : Prop :=
  v'.toNat = n * 2 ^ 64 % fieldModulus

theorem IsMontgomeryForm.lt {v' : Word} {n : Nat} (h : IsMontgomeryForm v' n) : v'.toNat < fieldModulus :=
  h.trans_lt (Nat.mod_lt _ (by decide))

theorem IsMontgomeryForm.modEq {v' : Word} {n : Nat} (h : IsMontgomeryForm v' n) :
    v'.toNat ≡ n * 2 ^ 64 [MOD fieldModulus] := by
  rw [h]
  exact Nat.mod_modEq _ _

/-- Into Montgomery form by R2, since R2 is 2^128 modulo P. -/
theorem IsMontgomeryForm.answers_enter {v v' : Word} (h : IsMontgomeryForm v' v.toNat) (hv : v.toNat < fieldModulus) :
    Answers (.mulReduceMontgomery v 0xFFFFFFFE00000001#64) v' := by
  have hR2 : 2 ^ 64 * 2 ^ 64 ≡ (0xFFFFFFFE00000001#64).toNat [MOD fieldModulus] := by decide
  refine answers_mulReduceMontgomery_of_modEq hv (by decide) h.lt ?_
  calc v'.toNat * 2 ^ 64 ≡ v.toNat * 2 ^ 64 * 2 ^ 64 [MOD fieldModulus] := h.modEq.mul_right _
    _ = v.toNat * (2 ^ 64 * 2 ^ 64) := Nat.mul_assoc _ _ _
    _ ≡ v.toNat * (0xFFFFFFFE00000001#64).toNat [MOD fieldModulus] := hR2.mul_left _

/-- Out of Montgomery form by 1. -/
theorem IsMontgomeryForm.answers_leave {v v' : Word} (h : IsMontgomeryForm v' v.toNat) (hv : v.toNat < fieldModulus) :
    Answers (.mulReduceMontgomery v' 1) v := by
  refine answers_mulReduceMontgomery_of_modEq h.lt (by decide) hv ?_
  calc v.toNat * 2 ^ 64 ≡ v'.toNat [MOD fieldModulus] := h.modEq.symm
    _ = v'.toNat * (1 : Word).toNat := (Nat.mul_one _).symm

/-- The product of two forms is the form of the product. -/
theorem IsMontgomeryForm.answers_mul {v' w' z : Word} {m n : Nat} (hv : IsMontgomeryForm v' m)
    (hw : IsMontgomeryForm w' n) (hz : IsMontgomeryForm z (m * n)) : Answers (.mulReduceMontgomery v' w') z := by
  refine answers_mulReduceMontgomery_of_modEq hv.lt hw.lt hz.lt ?_
  calc z.toNat * 2 ^ 64 ≡ m * n * 2 ^ 64 * 2 ^ 64 [MOD fieldModulus] := hz.modEq.mul_right _
    _ = m * 2 ^ 64 * (n * 2 ^ 64) := by ring
    _ ≡ v'.toNat * w'.toNat [MOD fieldModulus] := (hv.modEq.mul hw.modEq).symm

end Sys2Proof.Machine
end

section
/-! The statements of 41_modular_multiplier.md. -/

namespace Sys2Proof.Machine

/-- Settles O19: MUL is a plain multiplication, whose response is the promised product. -/
theorem mulIsProductModP : Obligations.MulIsProductModP := by
  intro x y s hx hy
  obtain ⟨hcode, -, -⟩ := Laws.EncodedFields.mul x y
  obtain ⟨z, hz, hlt, hans⟩ := exists_answers_multiplication (M := .mul) (by simp [multiplications]) hx hy
  exact ⟨hcode, rfl, z, hz, hlt, hans s⟩

/-- Settles O20: the limb folding is a plain multiplication, whose response is the promised product. -/
theorem mulReduce159IsProductModP : Obligations.MulReduce159IsProductModP := by
  intro x y s hx hy
  obtain ⟨hcode, -, -⟩ := Laws.EncodedFields.mulReduce159 x y
  obtain ⟨z, hz, hlt, hans⟩ := exists_answers_multiplication (M := .mulReduce159) (by simp [multiplications]) hx hy
  exact ⟨hcode, rfl, z, hz, hlt, hans s⟩

/-- Settles O21: the REDC step multiplies by the factor 2^-64. -/
theorem montgomeryProductIsReduced : Obligations.MontgomeryProductIsReduced := by
  refine ⟨by decide, fun x y s hx hy => ?_⟩
  obtain ⟨hcode, -, -⟩ := Laws.EncodedFields.mulReduceMontgomery x y
  obtain ⟨z, hz, hlt, hans⟩ := multipliesBy_radixInverse.exists_answers hx hy
  exact ⟨hcode, rfl, z, hz, hlt, hans s⟩

/-- Settles O22: `b` and `xl` are the two halves of `a * P`. -/
theorem redcQuotientIsExact : Obligations.RedcQuotientIsExact := by
  intro xl a b
  have hxl := xl.isLt
  have hhalves : b.toNat * 2 ^ 64 + xl.toNat = a.1.toNat * fieldModulus := redcQuotient_toNat xl
  refine ⟨?_, redcSum_shr64_add_carry_le xl, ?_⟩
  · rw [← hhalves, Nat.mul_add_mod', Nat.mod_eq_of_lt hxl]
  · rw [← hhalves, Nat.add_comm, Nat.add_mul_div_right _ _ (by decide), Nat.div_eq_of_lt hxl, Nat.zero_add]

/-- Settles O24: the word of the reduced product is the response of both. -/
theorem multiplicationVariantsAgree : Obligations.MultiplicationVariantsAgree := by
  intro x y hx hy
  obtain ⟨z, hz, -, hmul⟩ := exists_answers_multiplication (M := .mul) (by simp [multiplications]) hx hy
  exact ⟨z, hmul, answers_multiplication_of_toNat_eq (by simp [multiplications]) hx hy hz⟩

/-- Settles O25: reducing the product before the factor 2^-64 is applied does not change the residue, and the comparator
is given the same word twice. -/
theorem montgomeryConsistency : Obligations.MontgomeryConsistency := by
  intro x y hx hy
  obtain ⟨m, hm, -, hmul⟩ := exists_answers_multiplication (M := .mul) (by simp [multiplications]) hx hy
  obtain ⟨z, hz, -, hmont⟩ := multipliesBy_radixInverse.exists_answers hx hy
  have href : z.toNat = m.toNat * radixInverse % fieldModulus := by
    rw [hz, hm]
    exact (Nat.mod_modEq _ _).symm.mul_right _
  have hequal : Answers (.montgomeryEquals z z) 1 := answers_of_toNat_eq_promisedValue rfl (if_pos rfl).symm
  exact ⟨m, z, z, hmul, hmont, href, rfl, hequal⟩

/-- Settles O26: a multiplication with a fixed factor has the laws, and its identity is the factor's inverse. -/
theorem multiplicationLaws : Obligations.MultiplicationLaws := by
  intro x y w hx hy hw
  refine ⟨fun M hM => ?_, fun M hM => (multipliesBy_one hM).identity (by decide) (by decide) hx,
    (multipliesBy_radixInverse.identity (by decide) (by decide) hx).1⟩
  obtain ⟨k, hk⟩ := exists_multipliesBy hM
  exact ⟨hk.comm hx hy, hk.assoc hx hy hw, (hk.zero hy).1, (hk.zero hx).2,
    fun A hA => hk.addition_distrib hA hx hy hw⟩

/-- Settles O27: the forms enter by R2, leave by 1 and multiply, and R1 is the form of 1. -/
theorem montgomeryFormIdentities : Obligations.MontgomeryFormIdentities := by
  have hR1 : IsMontgomeryForm 0x00000000FFFFFFFF#64 1 := by unfold IsMontgomeryForm; decide
  refine ⟨by decide, by decide, by decide, hR1.answers_mul hR1 hR1, fun v w v' w' vw' hv hw hv' hw' hvw' => ?_⟩
  have hv' : IsMontgomeryForm v' v.toNat := hv'
  exact ⟨hv'.answers_enter hv, hv'.answers_leave hv, hv'.answers_mul hw' hvw'⟩

end Sys2Proof.Machine
end

section
/-! SUPPORT. The comparator's response as an equivalence, and the words that denote the same field element. -/

namespace Sys2Proof.Machine

/-- A command has at most one response. -/
theorem Answers.unique {i : Instr} {z z' : Word} (h : Answers i z) (h' : Answers i z') : z = z' := by
  have hnext := (h State.reset).symm.trans (h' State.reset)
  simpa using hnext

/-- The comparator answers 1 on the same word and 0 otherwise. -/
theorem answers_montgomeryEquals_ite (lhs rhs : Word) :
    Answers (.montgomeryEquals lhs rhs) (if lhs.toNat = rhs.toNat then 1 else 0) :=
  answers_of_toNat_eq_promisedValue rfl (apply_ite BitVec.toNat _ _ _)

theorem answers_montgomeryEquals_zero_of_ne {lhs rhs : Word} (h : lhs ≠ rhs) :
    Answers (.montgomeryEquals lhs rhs) 0 := by
  have hans := answers_montgomeryEquals_ite lhs rhs
  rwa [if_neg (mt BitVec.eq_of_toNat_eq h)] at hans

/-- The comparator answers 1 for the same word only. -/
theorem answers_montgomeryEquals_one_iff (lhs rhs : Word) : Answers (.montgomeryEquals lhs rhs) 1 ↔ lhs = rhs := by
  refine ⟨fun hone => ?_, fun heq => ?_⟩
  · by_contra hne
    exact absurd (hone.unique (answers_montgomeryEquals_zero_of_ne hne)) (by decide)
  · have hans := answers_montgomeryEquals_ite lhs rhs
    rwa [if_pos (congrArg BitVec.toNat heq)] at hans

/-- Two words of the same field element lie P apart, since 2^64 is less than twice P. -/
theorem trueValue_eq_iff_add_fieldModulus {x v : Word} (h : x.toNat < v.toNat) :
    trueValue x = trueValue v ↔ x.toNat + fieldModulus = v.toNat := by
  have hv := v.isLt
  simp only [trueValue, fieldModulus]
  omega

/-- Subtracting P from a word that is not canonical does not wrap. -/
theorem sub_modulus_toNat_add {v : Word} (h : fieldModulus ≤ v.toNat) :
    (v - modulus).toNat + fieldModulus = v.toNat := by
  have hle : modulus ≤ v := by rwa [BitVec.le_def, modulus_toNat]
  rw [BitVec.toNat_sub_of_le hle, modulus_toNat]
  exact Nat.sub_add_cancel h

/-- A word that is not canonical has exactly one smaller word of the same field element. -/
theorem existsUnique_smaller_trueValue_eq {v : Word} (h : fieldModulus ≤ v.toNat) :
    ∃! x : Word, x.toNat < v.toNat ∧ trueValue x = trueValue v := by
  have hsub := sub_modulus_toNat_add h
  have hlt : (v - modulus).toNat < v.toNat := hsub ▸ Nat.lt_add_of_pos_right (by decide)
  refine ⟨v - modulus, ⟨hlt, (trueValue_eq_iff_add_fieldModulus hlt).2 hsub⟩, fun x hx => ?_⟩
  obtain ⟨hxlt, hxv⟩ := hx
  have hadd := (trueValue_eq_iff_add_fieldModulus hxlt).1 hxv
  exact BitVec.eq_of_toNat_eq (Nat.add_right_cancel (hadd.trans hsub.symm))

/-- Canonical words denote the same field element only when they are the same word. -/
theorem trueValue_eq_iff_of_canonical {x y : Word} (hx : x.toNat < fieldModulus) (hy : y.toNat < fieldModulus) :
    trueValue x = trueValue y ↔ x = y := by
  rw [trueValue_of_lt hx, trueValue_of_lt hy, BitVec.toNat_inj]

/-- Every arithmetic operation answers canonical operands with a canonical word. -/
theorem exists_answers_canonical {A : Word → Word → Instr}
    (hA : A ∈ additions ++ multiplications ++ [Instr.mulReduceMontgomery]) {x y : Word}
    (hx : x.toNat < fieldModulus) (hy : y.toNat < fieldModulus) : ∃ z, Answers (A x y) z ∧ z.toNat < fieldModulus := by
  rw [List.append_assoc, List.mem_append] at hA
  obtain hadd | hmul := hA
  · obtain ⟨z, -, hlt, hans⟩ := exists_answers_addition hadd hx hy
    exact ⟨z, hans, hlt⟩
  · obtain ⟨k, hk⟩ := exists_multipliesBy hmul
    obtain ⟨z, -, hlt, hans⟩ := hk.exists_answers hx hy
    exact ⟨z, hans, hlt⟩

end Sys2Proof.Machine
end

section
/-! The statements of 42_field_equality.md. -/

namespace Sys2Proof.Machine

/-- Settles O30: two words of one field element lie P apart, and the comparator tells any two words apart. -/
theorem equalsDoesNotTolerateP : Obligations.EqualsDoesNotTolerateP := by
  refine ⟨fun x y hne _ => answers_montgomeryEquals_zero_of_ne hne, fun x v hlt hxv => ?_,
    fun v => existsUnique_smaller_trueValue_eq, by decide⟩
  have hadd := (trueValue_eq_iff_add_fieldModulus hlt).1 hxv
  exact hadd ▸ Nat.le_add_left fieldModulus x.toNat

/-- Settles O31: the comparator decides equality of words, which on canonical operands is field equality. -/
theorem equalsDecidesFieldEquality : Obligations.EqualsDecidesFieldEquality :=
  ⟨fun x y hx hy => (answers_montgomeryEquals_one_iff x y).trans (trueValue_eq_iff_of_canonical hx hy).symm,
    fun _ hA _ _ => exists_answers_canonical hA⟩

/-- Settles O29: the comparator's response, in every state. -/
theorem equalsIsWordEquality : Obligations.EqualsIsWordEquality := by
  intro lhs rhs s
  obtain ⟨hcode, -, -⟩ := Laws.EncodedFields.montgomeryEquals lhs rhs
  exact ⟨hcode, rfl, answers_montgomeryEquals_ite lhs rhs s⟩

end Sys2Proof.Machine
end

section
/-! SUPPORT. Which commands are out of their domain, and what such a command does (60_exceptions.md R71). -/

namespace Sys2Proof.Machine

/-- Each of the six arithmetic operations asks for two canonical operands. -/
theorem inDomain_arithmetic {A : Word → Word → Instr}
    (hA : A ∈ additions ++ multiplications ++ [Instr.mulReduceMontgomery]) (x y : Word) :
    inDomain (A x y) = (isCanonical x && isCanonical y) := by
  simp only [additions, multiplications, List.cons_append, List.nil_append, List.mem_cons, List.not_mem_nil,
    or_false] at hA
  obtain rfl | rfl | rfl | rfl | rfl | rfl := hA <;> rfl

theorem inDomain_arithmetic_eq_false_iff {A : Word → Word → Instr}
    (hA : A ∈ additions ++ multiplications ++ [Instr.mulReduceMontgomery]) (x y : Word) :
    inDomain (A x y) = false ↔ fieldModulus ≤ x.toNat ∨ fieldModulus ≤ y.toNat := by
  rw [inDomain_arithmetic hA, ← Bool.not_eq_true, canonicalOperands_iff, Decidable.not_and_iff_or_not, Nat.not_lt,
    Nat.not_lt]

/-- A command out of its domain is answered with the next free value in every state. -/
theorem exec_of_inDomain_eq_false {i : Instr} (h : inDomain i = false) (s : State) :
    exec i s = .next (s.respondDraw i) := by
  cases i with
  | montgomeryEquals lhs rhs => exact nomatch h
  | _ x y => exact answerArithmetic_draw _ _ s h

/-- A step at a word with code 7 is refused whatever the operand fields hold (60_exceptions.md R74). -/
theorem step_presentNext_reserved (x y : Word) (s : State) :
    step (s.presentNext (7#3 ++ (x ++ y))) = .refused .reservedSelectCode := by
  obtain ⟨hcode, -, -⟩ := fields_of_layout 7#3 x y
  exact (step_eq_refused_iff (State.presentNext_pending s _)).2 hcode

end Sys2Proof.Machine
end

section
/-! The statements of 60_exceptions.md. -/

namespace Sys2Proof.Machine

/-- Settles O6: the select code alone decides the refusal, and two operands outside [0, P) make one draw. -/
theorem eventsOfOneCommandDoNotCompete : Obligations.EventsOfOneCommandDoNotCompete := by
  refine ⟨step_presentNext_reserved, fun A hA x y s hx _ => ?_⟩
  have hdom := (inDomain_arithmetic_eq_false_iff hA x y).2 (.inl hx)
  exact ⟨Config.draw s.draws (A x y), exec_of_inDomain_eq_false hdom s⟩

/-- Settles O8: every instruction answers, and a fault has no constructor. -/
theorem everyOperationAnswers : Obligations.EveryOperationAnswers := by
  refine ⟨fun i s => ?_, ⟨nofun⟩⟩
  obtain ⟨z, hz⟩ := exists_exec_eq_next i s
  exact ⟨z, _, hz⟩

/-- Settles O11: an arithmetic command leaves its domain by either operand, and is then answered with a draw. -/
theorem outOfDomainResponseIsDrawn : Obligations.OutOfDomainResponseIsDrawn :=
  ⟨fun _ hA => inDomain_arithmetic_eq_false_iff hA, fun _ _ => rfl, fun _ s h => exec_of_inDomain_eq_false h s⟩

end Sys2Proof.Machine
end

section
/-! SUPPORT. The factor 2^-64 between the two products, the canonicalised word, and a step at a command whose response
is known. -/

namespace Sys2Proof.Machine

/-- The factor 2^-64 fixes no residue but 0, since 2^-64 - 1 is coprime to P. -/
theorem mul_radixInverse_mod_eq_self_iff (n : Nat) : n * radixInverse % fieldModulus = n ↔ n = 0 := by
  refine ⟨fun h => ?_, fun h => by rw [h, Nat.zero_mul, Nat.zero_mod]⟩
  have hlt : n < fieldModulus := h ▸ Nat.mod_lt _ (by decide)
  have hfix : n ≡ n * radixInverse [MOD fieldModulus] := (Nat.mod_eq_of_lt hlt).trans h.symm
  have hdvd : fieldModulus ∣ n * (radixInverse - 1) := by
    rw [Nat.mul_sub_one]
    exact (Nat.modEq_iff_dvd' (Nat.le_mul_of_pos_right n (by decide))).1 hfix
  have hcoprime : Nat.Coprime fieldModulus (radixInverse - 1) := by decide
  exact Nat.eq_zero_of_dvd_of_lt (hcoprime.dvd_of_dvd_mul_right hdvd) hlt

/-- A canonicalised word is the true value as a number. -/
theorem canonicalise_toNat_eq_trueValue (v : Word) : (canonicalise v).toNat = trueValue v :=
  canonicalise_toNat v

theorem trueValue_lt (v : Word) : trueValue v < fieldModulus :=
  Nat.mod_lt _ (by decide)

/-- A step at an encoded command answers it with the response that the command has in every state. -/
theorem Answers.step_of_encode {i : Instr} {z : Word} (h : Answers i z) {s : State} {rest : List CommandWord}
    (hs : s.pending = encode i :: rest) :
    step s = .next
      { pending := rest, history := s.history ++ [{ command := i, response := z }], draws := s.draws } :=
  (step_of_decode_ok hs (decode_encode i)).trans (h _)

end Sys2Proof.Machine
end

section
/-! The statements of 70_reset_and_hazards.md. -/

namespace Sys2Proof.Machine

/-- Settles O28: the Montgomery product is 2^-64 times the plain product, and that factor fixes only 0. -/
theorem montgomeryIsNotInterchangeable : Obligations.MontgomeryIsNotInterchangeable := by
  intro x y hx hy
  obtain ⟨m, z, _, hmul, hmont, href, rfl, -⟩ := montgomeryConsistency x y hx hy
  refine ⟨m, z, hmul, hmont, ?_⟩
  calc z = m ↔ m.toNat * radixInverse % fieldModulus = m.toNat := by rw [← href, BitVec.toNat_inj]
    _ ↔ m.toNat = 0 := mul_radixInverse_mod_eq_self_iff m.toNat
    _ ↔ m = 0 := BitVec.toNat_inj (y := 0)

/-- Settles O33: canonicalised words are their own true values, so the comparator compares those. -/
theorem canonicaliseThenCompare : Obligations.CanonicaliseThenCompare := by
  intro v w
  have hv := canonicalise_toNat_eq_trueValue v
  have hw := canonicalise_toNat_eq_trueValue w
  have hlt : (canonicalise v).toNat < fieldModulus := hv ▸ trueValue_lt v
  have hans := answers_montgomeryEquals_ite (canonicalise v) (canonicalise w)
  rw [hv, hw] at hans
  exact ⟨hlt, (trueValue_of_lt hlt).trans hv, hans⟩

/-- Settles O39: the first step leaves the second command first, and neither response depends on the state. -/
theorem backToBackCommandsHaveNoHazard : Obligations.BackToBackCommandsHaveNoHazard := by
  intro i j s rest hi hj hs
  obtain ⟨zi, hansi, -⟩ := exists_answers_promisedValue hi
  obtain ⟨zj, hansj, -⟩ := exists_answers_promisedValue hj
  refine ⟨zi, zj, _, hansi, hansj, hansi.step_of_encode hs, ?_⟩
  rw [hansj.step_of_encode rfl, List.append_assoc, List.singleton_append]

/-- Settles O40: with nothing pending after reset the presented command is the one answered, as in every state. -/
theorem resetIsNotObservable : Obligations.ResetIsNotObservable := by
  intro i s hi
  obtain ⟨z, hans, -⟩ := exists_answers_promisedValue hi
  have hpending : (s.assertReset.present (encode i)).pending = [encode i] := by
    rw [State.present_pending, State.assertReset_pending, List.nil_append]
  exact ⟨State.assertReset_pending s, z, hans, hans.step_of_encode hpending⟩

end Sys2Proof.Machine
end

section
/-! SUPPORT. Encoding what a command word decodes to, and a step by what is presented to it. -/

namespace Sys2Proof

/-- The three fields laid out again are the command word. -/
theorem layout_of_fields (cmd : CommandWord) : selectField cmd ++ (xField cmd ++ yField cmd) = cmd := by
  have hcmd := cmd.isLt
  apply BitVec.eq_of_toNat_eq
  rw [layout_toNat, selectField, xField, yField, BitVec.extractLsb'_toNat, BitVec.extractLsb'_toNat,
    BitVec.extractLsb'_toNat, Nat.shiftRight_eq_div_pow, Nat.shiftRight_eq_div_pow, Nat.shiftRight_eq_div_pow]
  omega

/-- Decoding drops no bit (30_encoding.md R43). -/
theorem encode_of_decode {cmd : CommandWord} {i : Instr} (h : decode cmd = .ok i) : encode i = cmd := by
  have hcode : selectField cmd ≠ 7#3 := fun h7 => nomatch h.symm.trans ((decode_eq_error_iff cmd).2 h7)
  obtain ⟨op, hop, hok⟩ := exists_decode_eq_ok hcode
  obtain rfl : i = op.command (xField cmd) (yField cmd) := Except.ok.inj (h.symm.trans hok)
  rw [encode_command, hop, layout_of_fields]

end Sys2Proof

namespace Sys2Proof.Machine

/-- A step with no command presented changes nothing (log entry 6). -/
theorem step_of_pending_nil {s : State} (hs : s.pending = []) : step s = .next s := by
  rw [step, State.fetch_nil hs]

/-- A step at a presented command that answers a next state has decoded the command. -/
theorem exists_decode_of_step_eq_next {s t : State} {cmd : CommandWord} {rest : List CommandWord}
    (hs : s.pending = cmd :: rest) (h : step s = .next t) : ∃ i, decode cmd = .ok i := by
  cases hd : decode cmd with
  | ok i => exact ⟨i, rfl⟩
  | error e => exact nomatch h.symm.trans (step_of_decode_error hs hd)

end Sys2Proof.Machine
end

section
/-! SUPPORT. The invariant of the bookkeeping under one more transaction, and everything that an operation and a step
can do. -/

namespace Sys2Proof.Machine

/-- The state in which the transaction `tr` is observed too, with a draw counted when it is out of its domain (log entry
2). -/
def State.observe (s : State) (tr : Transaction) : State :=
  { s with
    history := s.history ++ [tr]
    draws := if inDomain tr.command then s.draws else s.draws + 1 }

@[simp] theorem State.observe_pending (s : State) (tr : Transaction) : (s.observe tr).pending = s.pending := rfl
@[simp] theorem State.observe_history (s : State) (tr : Transaction) :
    (s.observe tr).history = s.history ++ [tr] := rfl
@[simp] theorem State.observe_draws (s : State) (tr : Transaction) :
    (s.observe tr).draws = if inDomain tr.command then s.draws else s.draws + 1 := rfl

/-- The contract of one transaction: it binds the response only inside the domain. -/
theorem keepsContract_iff (tr : Transaction) :
    keepsContract tr = true ↔ (inDomain tr.command = true → tr.response.toNat = promisedValue tr.command) := by
  rw [keepsContract, Bool.or_eq_true, Bool.not_eq_true', beq_iff_eq, ← Bool.not_eq_true, imp_iff_not_or]

theorem State.inv_iff (s : State) :
    s.inv = true ↔ (∀ tr ∈ s.history, keepsContract tr = true) ∧
      s.draws = s.history.countP (fun tr => !inDomain tr.command) := by
  rw [State.inv, Bool.and_eq_true, List.all_eq_true, beq_iff_eq]

@[simp] theorem State.accept_inv (s : State) : s.accept.inv = s.inv := rfl

/-- Observing a transaction that keeps the contract keeps the invariant. -/
theorem State.inv_observe {s : State} {tr : Transaction} (hs : s.inv = true) (htr : keepsContract tr = true) :
    (s.observe tr).inv = true := by
  obtain ⟨hall, hdraws⟩ := (State.inv_iff s).1 hs
  refine (State.inv_iff _).2 ⟨List.forall_mem_append.2 ⟨hall, List.forall_mem_singleton.2 htr⟩, ?_⟩
  rw [State.observe_draws, State.observe_history, List.countP_append, List.countP_singleton, ← hdraws]
  cases inDomain tr.command <;> rfl

/-- Everything an operation can do: one transaction of its command that keeps the contract is observed. -/
theorem exec_cases {i : Instr} {s t : State} (h : exec i s = .next t) :
    ∃ z, keepsContract { command := i, response := z } = true ∧ t = s.observe { command := i, response := z } := by
  obtain ⟨z, hz⟩ := exists_exec_eq_next i s
  obtain rfl : t = s.observe { command := i, response := z } := Host.Outcome.next.inj (h.symm.trans hz)
  refine ⟨z, (keepsContract_iff _).2 fun hdom => ?_, rfl⟩
  obtain ⟨z', hans, hz'⟩ := exists_answers_promisedValue hdom
  have hhistory := congrArg State.history (Host.Outcome.next.inj (h.symm.trans (hans s)))
  obtain rfl : z = z' := by simpa using hhistory
  exact hz'

/-- Everything a step can do: nothing without a command, and otherwise the oldest one is taken and observed as the
transaction that keeps the contract. -/
theorem step_cases {s t : State} (h : step s = .next t) :
    (s.pending = [] ∧ t = s) ∨
    ∃ (i : Instr) (z : Word), s.pending = encode i :: s.accept.pending ∧
      keepsContract { command := i, response := z } = true ∧
      t = s.accept.observe { command := i, response := z } := by
  cases hs : s.pending with
  | nil => exact .inl ⟨rfl, Host.Outcome.next.inj (h.symm.trans (step_of_pending_nil hs))⟩
  | cons cmd rest =>
    obtain ⟨i, hi⟩ := exists_decode_of_step_eq_next hs h
    rw [step_of_decode_ok hs hi, ← State.accept_cons hs] at h
    obtain ⟨z, hz, ht⟩ := exec_cases h
    exact .inr ⟨i, z, by rw [encode_of_decode hi, State.accept_cons hs], hz, ht⟩

/-- Taking the oldest command and observing its transaction moves its word from one list to the other. -/
theorem commandOrder_accept_observe {s : State} {tr : Transaction}
    (hs : s.pending = encode tr.command :: s.accept.pending) : commandOrder (s.accept.observe tr) = commandOrder s := by
  rw [commandOrder, commandOrder, hs, State.observe_history, State.observe_pending, State.accept_history,
    List.map_append, List.map_singleton, List.append_assoc, List.singleton_append]

end Sys2Proof.Machine
end

section
/-! SUPPORT. The corrections by EPSILON on a borrow and on a carry, and the informative sign-bit test. -/

namespace Sys2Proof.Machine

/-- The carry in integers. -/
theorem ovfAdd64_carry_iff (a b : Word) : (ovfAdd64 a b).2 = 1 ↔ 2 ^ 64 ≤ a.toNat + b.toNat := by
  rw [ovfAdd64_snd, ite_eq_left_iff, imp_iff_not (by decide), not_not]

/-- A difference that borrowed from a subtrahend of at most P leaves room for EPSILON, since 2^64 is P + EPSILON. -/
theorem epsilon_le_of_borrow {a b : Word} (hb : b.toNat ≤ fieldModulus) (hborrow : (ovfSub64 a b).2 = 1) :
    epsilon.toNat ≤ (ovfSub64 a b).1.toNat := by
  have hlt := (ovfSub64_borrow_iff a b).1 hborrow
  rw [ovfSub64_fst_toNat, epsilon_toNat]
  simp only [fieldModulus] at hb
  omega

/-- A sum with a limb times EPSILON that carried leaves room for EPSILON below P: the limb's multiple is at most
EPSILON squared (41_modular_multiplier.md R56). -/
theorem ovfAdd64_add_epsilon_lt_of_carry {a : Word} {c : Limb}
    (hcarry : (ovfAdd64 a (wrapSub64 (shl64 (zext64 c) 32) (zext64 c))).2 = 1) :
    (ovfAdd64 a (wrapSub64 (shl64 (zext64 c) 32) (zext64 c))).1.toNat + epsilon.toNat < fieldModulus := by
  have ha := a.isLt
  have hc := c.isLt
  have hsum := (ovfAdd64_carry_iff _ _).1 hcarry
  rw [limb_mul_epsilon_toNat] at hsum
  rw [ovfAdd64_fst_toNat, limb_mul_epsilon_toNat, epsilon_toNat]
  simp only [fieldModulus]
  omega

/-- A limb is far below P. -/
theorem zext64_limb_toNat_le (c : Limb) : (zext64 c).toNat ≤ fieldModulus := by
  rw [zext64_toNat c (by decide)]
  exact c.isLt.le.trans (by decide)

/-- Of a word that is not 0 and its negative, one has the top bit. -/
theorem le_or_wrapSub64_zero_toNat {t : Word} (h : t ≠ 0) : 2 ^ 63 ≤ (t ||| wrapSub64 0 t).toNat := by
  have hpos : t.toNat ≠ 0 := mt (BitVec.toNat_inj (y := 0)).1 h
  rw [BitVec.toNat_or]
  by_cases htop : 2 ^ 63 ≤ t.toNat
  · exact htop.trans Nat.left_le_or
  · have hneg : 2 ^ 63 ≤ (wrapSub64 0 t).toNat := by
      rw [wrapSub64_toNat, show (0 : Word).toNat = 0 from rfl]
      omega
    exact hneg.trans Nat.right_le_or

/-- Shifted right by 63, a word with the top bit is 1. -/
theorem shr64_63_eq_one {v : Word} (h : 2 ^ 63 ≤ v.toNat) : shr64 v 63 = 1 := by
  have hv := v.isLt
  apply BitVec.eq_of_toNat_eq
  rw [shr64_toNat, show (1 : Word).toNat = 1 from rfl]
  omega

end Sys2Proof.Machine
end

section
/-! The statements about every step and every operation. -/

namespace Sys2Proof.Machine

/-- Settles O36: a step changes nothing, or observes one more transaction that keeps the contract. -/
theorem stepKeepsContract : Obligations.StepKeepsContract := by
  intro s t hinv h
  obtain ⟨-, rfl⟩ | ⟨i, z, -, hz, rfl⟩ := step_cases h
  · exact hinv
  · exact State.inv_observe (s.accept_inv.trans hinv) hz

/-- Settles O38: a step changes nothing, or moves the oldest word behind those answered before. -/
theorem responsesInCommandOrder : Obligations.ResponsesInCommandOrder := by
  intro s t h
  obtain ⟨hs, rfl⟩ | ⟨i, z, hs, -, rfl⟩ := step_cases h
  · exact ⟨rfl, absurd hs⟩
  · exact ⟨commandOrder_accept_observe hs, fun _ => List.length_append⟩

/-- Settles O2: the decoder reads the three fields, and they lay out the whole word. -/
theorem encodeInvertsDecode : Obligations.EncodeInvertsDecode :=
  fun _ _ => encode_of_decode

/-- Settles O9: the one transaction that an operation observes, field by field. -/
theorem frameOfEveryOperation : Obligations.FrameOfEveryOperation := by
  intro i s t h
  obtain ⟨z, hz⟩ := exists_exec_eq_next i s
  obtain rfl := Host.Outcome.next.inj (hz.symm.trans h)
  exact ⟨rfl, ⟨z, rfl⟩, rfl⟩

/-- Settles O10: the promised word is answered in every state, and one state tells any two words apart. -/
theorem responseIsFunctionOfCommand : Obligations.ResponseIsFunctionOfCommand := by
  intro i hi
  obtain ⟨z, hans, -⟩ := exists_answers_promisedValue hi
  exact ⟨z, hans, fun _ hans' => hans'.unique hans⟩

/-- Settles O7: the two cases of what is fetched. -/
theorem stepRunsDecodedInstruction : Obligations.StepRunsDecodedInstruction :=
  ⟨fun _ _ _ _ => step_of_decode_ok, fun _ => step_of_pending_nil⟩

/-- Settles O37: both lists are empty and nothing was drawn. -/
theorem resetMeetsContract : Obligations.ResetMeetsContract :=
  ⟨rfl, State.reset_history, State.reset_pending, rfl⟩

/-- Settles O4: the decoder runs on the four words. -/
theorem sampleWordsDecode : Obligations.SampleWordsDecode := by
  refine ⟨?_, ?_, ?_, ?_⟩ <;> decide

end Sys2Proof.Machine
end

section
/-! The statements about words and corrections. -/

namespace Sys2Proof.Machine

/-- Settles O13: `v - P` is canonical, and a canonical word of the same field element is a smaller one, of which there
is only one. -/
theorem nonCanonicalWordHasOneCanonical : Obligations.NonCanonicalWordHasOneCanonical := by
  intro v hv
  have hlt := v.isLt
  have hsub := sub_modulus_toNat_add hv
  have hle : (v - modulus).toNat ≤ 2 ^ 32 - 2 := by
    simp only [fieldModulus] at hsub
    omega
  have hcanonical : (v - modulus).toNat < fieldModulus := hle.trans_lt (by decide)
  have hvalue := (trueValue_eq_iff_add_fieldModulus (hcanonical.trans_le hv)).2 hsub
  refine ⟨⟨v - modulus, ⟨hcanonical, hvalue⟩, fun w hw => ?_⟩, hcanonical, hvalue, hle⟩
  obtain ⟨hwlt, hwv⟩ := hw
  exact (existsUnique_smaller_trueValue_eq hv).unique ⟨hwlt.trans_le hv, hwv⟩ ⟨hcanonical.trans_le hv, hvalue⟩

/-- Settles O23: every subtrahend is at most P, and the addend that may carry is a limb times EPSILON. -/
theorem correctionsNeverWrapAgain : Obligations.CorrectionsNeverWrapAgain := by
  intro x y _ hy
  have hadder : (wrapSub64 modulus y).toNat ≤ fieldModulus := wrapSub64_modulus_toNat hy ▸ Nat.sub_le _ _
  have hredc := (redcQuotient_lt (lowWord (umul128 x y))).le
  exact ⟨epsilon_le_of_borrow hadder,
    ⟨epsilon_le_of_borrow (zext64_limb_toNat_le _), ovfAdd64_add_epsilon_lt_of_carry⟩, epsilon_le_of_borrow hredc⟩

/-- Settles O32: the shifted word is 0 on 0 and 1 on any other word. -/
theorem signBitTestFindsZero : Obligations.SignBitTestFindsZero := by
  intro t
  by_cases h : t = 0
  · rw [if_pos h, h]
    decide
  · rw [if_neg h, signBitZeroTest, shr64_63_eq_one (le_or_wrapSub64_zero_toNat h)]
    decide

end Sys2Proof.Machine
end
